-- ==== Sys2Proof/Word.lean ====
section
/-! DEFINITION. The word and byte of the machine (spec/00_scope.md R5, R7): one 16-bit word is the
addressable unit, the register width and the instruction length; a console character has 8 bits. -/

namespace Sys2Proof

/-- A 16-bit word, bits 15 down to 0 (R5, R7). Addition of words is the sum mod 2^16 (R8, R124). -/
abbrev Word := BitVec 16

/-- An 8-bit console character (R13 to R15, decision D17). -/
abbrev Byte := BitVec 8

end Sys2Proof
end

