-- ==== Sys2Proof/Syntax.lean ====
section
/-! DEFINITION. The instructions: one constructor per row of spec/opcode_table.json, the eight alias
rows (RET, GETC, OUT, PUTS, IN, PUTSP, HALT, NOP) included. Fields have the widths of
spec/30_encoding.md R81. -/

namespace Sys2Proof

/-- The eight general registers a 3-bit register field names (spec/10_state.md R20, R82). -/
inductive Reg where
  | r0 | r1 | r2 | r3 | r4 | r5 | r6 | r7
deriving DecidableEq, Repr

/-- The instructions (spec/30_encoding.md R90, R91, R98). -/
inductive Instr where
  /-- BR, format BRF: the three bits of cond3 and PCoffset9 (R141). -/
  | br (n z p : Bool) (off9 : BitVec 9)
  /-- ADD, register form, format OPR (R121). -/
  | addReg (dr sr1 sr2 : Reg)
  /-- ADD, immediate form, format OPI (R121). -/
  | addImm (dr sr1 : Reg) (imm5 : BitVec 5)
  /-- LD, format PC9 (R161). -/
  | ld (dr : Reg) (off9 : BitVec 9)
  /-- ST, format PC9 (R165). -/
  | st (sr : Reg) (off9 : BitVec 9)
  /-- JSR, format JSRF (R145). -/
  | jsr (off11 : BitVec 11)
  /-- JSRR, format JSRRF (R146). -/
  | jsrr (base : Reg)
  /-- AND, register form, format OPR (R122). -/
  | andReg (dr sr1 sr2 : Reg)
  /-- AND, immediate form, format OPI (R122). -/
  | andImm (dr sr1 : Reg) (imm5 : BitVec 5)
  /-- LDR, format BASE6 (R163). -/
  | ldr (dr base : Reg) (off6 : BitVec 6)
  /-- STR, format BASE6 (R167). -/
  | str (sr base : Reg) (off6 : BitVec 6)
  /-- RTI, format RSVD (R220). -/
  | rti
  /-- NOT, format NOTF (R123). -/
  | not (dr sr : Reg)
  /-- LDI, format PC9 (R162). -/
  | ldi (dr : Reg) (off9 : BitVec 9)
  /-- STI, format PC9 (R166). -/
  | sti (sr : Reg) (off9 : BitVec 9)
  /-- JMP, format JMPF (R143). -/
  | jmp (base : Reg)
  /-- RES, format RSVD (R221). -/
  | res
  /-- LEA, format PC9 (R164). -/
  | lea (dr : Reg) (off9 : BitVec 9)
  /-- TRAP, format TRAPF (R190). -/
  | trap (vect8 : Byte)
  /-- RET: the words of JMP with BaseR = 7 (R144). -/
  | ret
  /-- GETC: the words of TRAP 0x20 (R192). -/
  | getc
  /-- OUT: the words of TRAP 0x21 (R193). -/
  | out
  /-- PUTS: the words of TRAP 0x22 (R194). -/
  | puts
  /-- IN: the words of TRAP 0x23 (R195). -/
  | in_
  /-- PUTSP: the words of TRAP 0x24 (R196). -/
  | putsp
  /-- HALT: the words of TRAP 0x25 (R197). -/
  | halt
  /-- NOP: the words of BR with cond3 = 000; PCoffset9 has no effect (R93, R97). -/
  | nop (off9 : BitVec 9)
deriving DecidableEq, Repr

end Sys2Proof
end

