-- ==== Sys2Proof/WellFormed.lean ====
section
/-! DEFINITION. When a term of Instr is the CANONICAL reading of the words it stands for. Field widths are
in the types, so the only terms refused are second spellings: the words of an alias row of
spec/opcode_table.json are read as that row's constructor, not as its base row's (log entry 7). -/

namespace Sys2Proof

/-- The six vectors the Trap Dispatcher knows (spec/30_encoding.md R91). -/
def knownVector (v : Byte) : Bool :=
  v == 0x20 || v == 0x21 || v == 0x22 || v == 0x23 || v == 0x24 || v == 0x25

/-- The term is the reading its words have: not BR with cond3 = 000 (that is `nop`, R93, R97), not JMP R7
(that is `ret`, R144), not TRAP with a known vector (that is the routine's own constructor, R91, R97). -/
def Instr.wf : Instr → Bool
  | .br n z p _ => n || z || p
  | .jmp base => base != .r7
  | .trap v => !knownVector v
  | .addReg _ _ _ => true
  | .addImm _ _ _ => true
  | .ld _ _ => true
  | .st _ _ => true
  | .jsr _ => true
  | .jsrr _ => true
  | .andReg _ _ _ => true
  | .andImm _ _ _ => true
  | .ldr _ _ _ => true
  | .str _ _ _ => true
  | .rti => true
  | .not _ _ => true
  | .ldi _ _ => true
  | .sti _ _ => true
  | .res => true
  | .lea _ _ => true
  | .ret => true
  | .getc => true
  | .out => true
  | .puts => true
  | .in_ => true
  | .putsp => true
  | .halt => true
  | .nop _ => true

end Sys2Proof
end

