-- ==== Sys2Proof/Decode.lean ====
section
/-! DEFINITION. The decoder of spec/30_encoding.md R98 with the alias rows of spec/opcode_table.json, and the
encoder, both written from the formats of R81 and the numbers of R90 and R91. The decoder is total over
the 65536 words (R94): it has no error; RTI, RES and unknown vectors fail only when they are executed. -/

namespace Sys2Proof

/-- The register a 3-bit field names, by its unsigned value (R82). -/
def regOf (b : BitVec 3) : Reg :=
  match b.toNat with
  | 0 => .r0
  | 1 => .r1
  | 2 => .r2
  | 3 => .r3
  | 4 => .r4
  | 5 => .r5
  | 6 => .r6
  | _ => .r7

/-- The 3-bit field that names a register (R82). -/
def Reg.code : Reg → BitVec 3
  | .r0 => 0
  | .r1 => 1
  | .r2 => 2
  | .r3 => 3
  | .r4 => 4
  | .r5 => 5
  | .r6 => 6
  | .r7 => 7

/-- `ir[15:12]` (R80). -/
def fOpcode (ir : Word) : BitVec 4 := ir.extractLsb' 12 4
/-- `DR` or the stored `SR`: `ir[11:9]` (R82). -/
def fDr (ir : Word) : Reg := regOf (ir.extractLsb' 9 3)
/-- `SR1`, `BaseR` and the `SR` of NOT: `ir[8:6]` (R82). -/
def fSr1 (ir : Word) : Reg := regOf (ir.extractLsb' 6 3)
/-- `SR2`: `ir[2:0]` (R82). -/
def fSr2 (ir : Word) : Reg := regOf (ir.extractLsb' 0 3)
/-- `imm5 = ir[4:0]` (R84). -/
def fImm5 (ir : Word) : BitVec 5 := ir.extractLsb' 0 5
/-- `offset6 = ir[5:0]` (R84). -/
def fOff6 (ir : Word) : BitVec 6 := ir.extractLsb' 0 6
/-- `PCoffset9 = ir[8:0]` (R84). -/
def fOff9 (ir : Word) : BitVec 9 := ir.extractLsb' 0 9
/-- `PCoffset11 = ir[10:0]` (R84). -/
def fOff11 (ir : Word) : BitVec 11 := ir.extractLsb' 0 11
/-- `trapvect8 = ir[7:0]` (R86). -/
def fVect8 (ir : Word) : Byte := ir.extractLsb' 0 8

/-- Opcode 0000: BR, or NOP when cond3 = 000 (R85, R93, R98). -/
def decodeBr (n z p : Bool) (off9 : BitVec 9) : Instr :=
  if n || z || p then .br n z p off9 else .nop off9

/-- Opcode 1100: JMP, or RET when BaseR = 7 (R97, R98). -/
def decodeJmp (base : Reg) : Instr :=
  if base = .r7 then .ret else .jmp base

/-- Opcode 1111: the routine of a known vector, else TRAP with an unknown one (R91, R98). -/
def decodeTrap (v : Byte) : Instr :=
  match v.toNat with
  | 0x20 => .getc
  | 0x21 => .out
  | 0x22 => .puts
  | 0x23 => .in_
  | 0x24 => .putsp
  | 0x25 => .halt
  | _ => .trap v

/-- The decoder (R98). Bits no field uses are not looked at (R87). -/
def decode (ir : Word) : Instr :=
  match (fOpcode ir).toNat with
  | 0x0 => decodeBr (ir.getLsbD 11) (ir.getLsbD 10) (ir.getLsbD 9) (fOff9 ir)
  | 0x1 => if ir.getLsbD 5 then .addImm (fDr ir) (fSr1 ir) (fImm5 ir) else .addReg (fDr ir) (fSr1 ir) (fSr2 ir)
  | 0x2 => .ld (fDr ir) (fOff9 ir)
  | 0x3 => .st (fDr ir) (fOff9 ir)
  | 0x4 => if ir.getLsbD 11 then .jsr (fOff11 ir) else .jsrr (fSr1 ir)
  | 0x5 => if ir.getLsbD 5 then .andImm (fDr ir) (fSr1 ir) (fImm5 ir) else .andReg (fDr ir) (fSr1 ir) (fSr2 ir)
  | 0x6 => .ldr (fDr ir) (fSr1 ir) (fOff6 ir)
  | 0x7 => .str (fDr ir) (fSr1 ir) (fOff6 ir)
  | 0x8 => .rti
  | 0x9 => .not (fDr ir) (fSr1 ir)
  | 0xA => .ldi (fDr ir) (fOff9 ir)
  | 0xB => .sti (fDr ir) (fOff9 ir)
  | 0xC => decodeJmp (fSr1 ir)
  | 0xD => .res
  | 0xE => .lea (fDr ir) (fOff9 ir)
  | _ => decodeTrap (fVect8 ir)

/-- The three bits of cond3, `ir[11]` = n first (R81, R85). -/
def cond3 (n z p : Bool) : BitVec 3 := BitVec.ofBool n ++ BitVec.ofBool z ++ BitVec.ofBool p

/-- Format PC9 (R81). -/
def encPC9 (op : BitVec 4) (r : Reg) (off9 : BitVec 9) : Word := op ++ r.code ++ off9
/-- Format OPR (R81), the ignored bits 00. -/
def encOPR (op : BitVec 4) (dr sr1 sr2 : Reg) : Word := op ++ dr.code ++ sr1.code ++ 0#3 ++ sr2.code
/-- Format OPI (R81). -/
def encOPI (op : BitVec 4) (dr sr1 : Reg) (imm5 : BitVec 5) : Word := op ++ dr.code ++ sr1.code ++ 1#1 ++ imm5
/-- Format BASE6 (R81). -/
def encBASE6 (op : BitVec 4) (r base : Reg) (off6 : BitVec 6) : Word := op ++ r.code ++ base.code ++ off6
/-- Format BRF (R81). -/
def encBRF (c : BitVec 3) (off9 : BitVec 9) : Word := 0x0#4 ++ c ++ off9
/-- Format JSRF (R81). -/
def encJSRF (off11 : BitVec 11) : Word := 0x4#4 ++ 1#1 ++ off11
/-- Formats JMPF and JSRRF (R81), the ignored bits zero. -/
def encJMPF (op : BitVec 4) (base : Reg) : Word := op ++ 0#3 ++ base.code ++ 0#6
/-- Format NOTF (R81), the ignored bits 111111. -/
def encNOTF (dr sr : Reg) : Word := 0x9#4 ++ dr.code ++ sr.code ++ 0x3F#6
/-- Format TRAPF (R81), the ignored bits 0000. -/
def encTRAPF (v : Byte) : Word := 0xF#4 ++ 0#4 ++ v

/-- The word of an instruction, the ignored bits as an assembler conventionally puts them (R81). -/
def encode : Instr → Word
  | .br n z p off9 => encBRF (cond3 n z p) off9
  | .addReg dr sr1 sr2 => encOPR 0x1 dr sr1 sr2
  | .addImm dr sr1 imm5 => encOPI 0x1 dr sr1 imm5
  | .ld dr off9 => encPC9 0x2 dr off9
  | .st sr off9 => encPC9 0x3 sr off9
  | .jsr off11 => encJSRF off11
  | .jsrr base => encJMPF 0x4 base
  | .andReg dr sr1 sr2 => encOPR 0x5 dr sr1 sr2
  | .andImm dr sr1 imm5 => encOPI 0x5 dr sr1 imm5
  | .ldr dr base off6 => encBASE6 0x6 dr base off6
  | .str sr base off6 => encBASE6 0x7 sr base off6
  | .rti => 0x8#4 ++ 0#12
  | .not dr sr => encNOTF dr sr
  | .ldi dr off9 => encPC9 0xA dr off9
  | .sti sr off9 => encPC9 0xB sr off9
  | .jmp base => encJMPF 0xC base
  | .res => 0xD#4 ++ 0#12
  | .lea dr off9 => encPC9 0xE dr off9
  | .trap v => encTRAPF v
  | .ret => encJMPF 0xC .r7
  | .getc => encTRAPF 0x20
  | .out => encTRAPF 0x21
  | .puts => encTRAPF 0x22
  | .in_ => encTRAPF 0x23
  | .putsp => encTRAPF 0x24
  | .halt => encTRAPF 0x25
  | .nop off9 => encBRF 0 off9

/-- The `mask` and the `match` of a constructor's row of spec/opcode_table.json: a word `w` selects the row
iff `w AND mask = match` (R98). -/
def Instr.row : Instr → Word × Word
  | .br _ _ _ _ => (0xF000, 0x0000)
  | .addReg _ _ _ => (0xF020, 0x1000)
  | .addImm _ _ _ => (0xF020, 0x1020)
  | .ld _ _ => (0xF000, 0x2000)
  | .st _ _ => (0xF000, 0x3000)
  | .jsr _ => (0xF800, 0x4800)
  | .jsrr _ => (0xF800, 0x4000)
  | .andReg _ _ _ => (0xF020, 0x5000)
  | .andImm _ _ _ => (0xF020, 0x5020)
  | .ldr _ _ _ => (0xF000, 0x6000)
  | .str _ _ _ => (0xF000, 0x7000)
  | .rti => (0xF000, 0x8000)
  | .not _ _ => (0xF000, 0x9000)
  | .ldi _ _ => (0xF000, 0xA000)
  | .sti _ _ => (0xF000, 0xB000)
  | .jmp _ => (0xF000, 0xC000)
  | .res => (0xF000, 0xD000)
  | .lea _ _ => (0xF000, 0xE000)
  | .trap _ => (0xF000, 0xF000)
  | .ret => (0xF1C0, 0xC1C0)
  | .getc => (0xF0FF, 0xF020)
  | .out => (0xF0FF, 0xF021)
  | .puts => (0xF0FF, 0xF022)
  | .in_ => (0xF0FF, 0xF023)
  | .putsp => (0xF0FF, 0xF024)
  | .halt => (0xF0FF, 0xF025)
  | .nop _ => (0xFE00, 0x0000)

/-- The instruction the decoder reads from a table word of `nbits` bits (bit 0 the least significant; the
bits above `nbits` are zero). Every instruction is one word of 16 bits (R80), so a longer one is refused. -/
def decodeTableWord (nbits w : Nat) : Option Instr :=
  if nbits = 0 ∨ 16 < nbits then none else some (decode (BitVec.ofNat 16 (w % 2 ^ nbits)))

end Sys2Proof
end

