-- ==== Sys2Proof/Config.lean ====
section
/-! DEFINITION. The parameters of spec/00_scope.md R6: the values the spec decided are definitions;
the ones it leaves open are constants without a body, so that no proof can learn what they are. -/

namespace Sys2Proof

/-- `PC_RESET` (R6, R282, D6): the address of the first instruction, whatever the image's origin. -/
def Config.pcReset : Word := 0x3000

/-- `KBSR_ADDR` (R6, R32, D5): the keyboard-status cell. The number is the spec's, from general knowledge. -/
def Config.kbsrAddr : Word := 0xFE00

/-- `KBDR_ADDR` (R6, R32, D5): the keyboard-data cell. The number is the spec's, from general knowledge. -/
def Config.kbdrAddr : Word := 0xFE02

/-- `IN_PROMPT` (R6, R195, D22): OPEN, a finite string. A free value (log entry 4). -/
opaque Config.inPrompt : List Byte

/-- `HALT_NOTICE` (R6, R197, D22): OPEN, a finite string. A free value (log entry 4). -/
opaque Config.haltNotice : List Byte

/-- An endless `CONSOLE_INPUT` (R6, "finite or infinite"): the character at position `n` of the stream
number `k`, where the characters a state lists end. The environment's choice: a free value (log entry 6). -/
opaque Config.endlessInput : Nat → Nat → Byte

/-- Poll availability (R6, R13, D16): whether the n-th keyboard poll sees the next unconsumed
character, if there is one. The environment's choice: a free value (log entry 5). -/
opaque Config.pollAvailable : Nat → Bool

end Sys2Proof
end

