-- ==== Sys2Proof/Machine/State.lean ====
section
/-! DEFINITION. The state of the machine (spec/10_state.md section 1), the reasons a step can stop, and the
state at process start (R36, R281). -/

namespace Sys2Proof.Machine

/-- The eight general registers, 16 bits each, none hardwired (R20, R21). -/
structure RegFile where
  r0 : Word
  r1 : Word
  r2 : Word
  r3 : Word
  r4 : Word
  r5 : Word
  r6 : Word
  r7 : Word
deriving DecidableEq, Repr

/-- The condition flags: exactly one of POSITIVE, ZERO, NEGATIVE (R26). -/
inductive Cond where
  | p | z | n
deriving DecidableEq, Repr

/-- The states of the execution loop (R30). -/
inductive RunState where
  | running | halted
deriving DecidableEq, Repr

/-- The two reserved opcodes (R220, R221). -/
inductive ReservedOpcode where
  | rti | res
deriving DecidableEq, Repr

/-- The causes of a fatal decode error (R31, R251). -/
inductive FatalCause where
  /-- `ReservedOpcode(RTI)` or `ReservedOpcode(RES)`. -/
  | reservedOpcode (op : ReservedOpcode)
  /-- `UnknownTrapVector(v)`, with the 8-bit vector. -/
  | unknownTrapVector (v : Byte)
deriving DecidableEq, Repr

/-- The console routine whose blocking read waits for a character (R236, R238): GETC, or IN after its
prompt (R195). -/
inductive BlockedRead where
  | getc | in_
deriving DecidableEq, Repr

/-- What follows the listed characters of `CONSOLE_INPUT` (R6: it is finite or infinite). -/
inductive InputTail where
  /-- Nothing: the listed characters are all there are. -/
  | ended
  /-- The characters of the stream number `stream` from there on, for ever (`Config.endlessInput`). -/
  | endless (stream : Nat)
deriving DecidableEq, Repr

/-- Memory: (address, word) pairs in one canonical form (`Memory.wf`). The unit is the 16-bit cell: the
hardware has no byte addressing (R29, R52; log entry 2). -/
abbrev Memory := List (Nat × Word)

/-- Everything the machine carries from one step to the next (spec/10_state.md section 1). -/
structure State where
  /-- R0 to R7 (R20). -/
  regs : RegFile
  /-- The program counter (R23, R24). -/
  pc : Word
  /-- The condition flags (R26). -/
  cond : Cond
  /-- The 65536 cells, KBSR and KBDR among them (R29, R32). -/
  mem : Memory
  /-- The loop state (R30). -/
  run : RunState
  /-- Why the machine stopped, when not by HALT (R31). -/
  fault : Option FatalCause
  /-- The listed characters of `CONSOLE_INPUT`, from its first on (R6, R13, R14). -/
  consoleInput : List Byte
  /-- Whether `CONSOLE_INPUT` ends with the listed characters or goes on for ever (R6). -/
  inputTail : InputTail
  /-- The console input position: how many characters have been consumed (R34). -/
  inPos : Nat
  /-- The console output: the characters put so far, in order (R15, R34). -/
  output : List Byte
  /-- How many characters of `output` have left the output buffer by a flush (R15, R34). -/
  flushed : Nat
  /-- The console read that waits for a character, if one does (R236, R238). -/
  wait : Option BlockedRead
  /-- The model's own counter of keyboard polls: it picks the next free answer (log entry 5). -/
  pollCount : Nat
deriving DecidableEq, Repr

/-- The reasons for which there is no next state. None of them is the machine's own exception: a fatal
decode error is a next state (R252). All are safe: no claim of a next state can be proved there. -/
inductive Fault where
  /-- Raised by `step` in HALTED, where no step exists (R236, R237). Safe. -/
  | halted
  /-- Raised by `step` while GETC or IN waits and no character is available: stuck (R14, R238). Safe. -/
  | waitingForInput
  /-- Raised by PUTS and PUTSP exactly where their loop never ends: no step exists (R194, R196, D21). Safe. -/
  | stringUnterminated
deriving DecidableEq, Repr

/-- The reasons for which an instruction has no meaning. -/
inductive Refusal where
  /-- Raised by an arm of `exec` that is not modelled; no arm is. Safe. -/
  | notModelled (mnemonic : String)
deriving DecidableEq, Repr

/-- What is open when a machine is launched (R6, R36): the registers, the flags, the memory the loader
left, and the console input. -/
structure Launch where
  gprReset : RegFile
  condReset : Cond
  memInit : Memory
  consoleInput : List Byte
  inputTail : InputTail
deriving DecidableEq, Repr

/-- The state at process start for a given launch (R36, R281). -/
def State.launch (l : Launch) : State where
  regs := l.gprReset
  pc := Config.pcReset
  cond := l.condReset
  mem := l.memInit
  run := .running
  fault := none
  consoleInput := l.consoleInput
  inputTail := l.inputTail
  inPos := 0
  output := []
  flushed := 0
  wait := none
  pollCount := 0

/-- The launch of `State.reset`: no image, no input; the registers zero and the flags ZERO, the values that
log entry 1 names because the spec gives none (R36). DESIGN CHOICE, unsafe. -/
def Launch.reset : Launch where
  gprReset := ⟨0, 0, 0, 0, 0, 0, 0, 0⟩
  condReset := .z
  memInit := []
  consoleInput := []
  inputTail := .ended

/-- The machine right after reset (R36, R281). -/
def State.reset : State := State.launch Launch.reset

end Sys2Proof.Machine
end

