-- ==== Sys2Proof/Machine/Operands.lean ====
section
/-! DEFINITION. The operand forms: register read and write, sign and zero extension (spec/00_scope.md R9), the
second operand of ADD and AND (spec/30_encoding.md R83, R84) and the effective addresses
(spec/42_load_store.md R160). -/

namespace Sys2Proof.Machine

/-- `x[i]` (R10, R20). -/
def RegFile.get (f : RegFile) : Reg → Word
  | .r0 => f.r0
  | .r1 => f.r1
  | .r2 => f.r2
  | .r3 => f.r3
  | .r4 => f.r4
  | .r5 => f.r5
  | .r6 => f.r6
  | .r7 => f.r7

/-- `x[i] <- v` (R10, R20). -/
def RegFile.set (f : RegFile) : Reg → Word → RegFile
  | .r0, v => { f with r0 := v }
  | .r1, v => { f with r1 := v }
  | .r2, v => { f with r2 := v }
  | .r3, v => { f with r3 := v }
  | .r4, v => { f with r4 := v }
  | .r5, v => { f with r5 := v }
  | .r6, v => { f with r6 := v }
  | .r7, v => { f with r7 := v }

/-- `x[i]` in a state. -/
def State.reg (s : State) (i : Reg) : Word := s.regs.get i

/-- `x[i] <- v` in a state; no register is hardwired (R21). -/
def State.setReg (s : State) (i : Reg) (v : Word) : State := { s with regs := s.regs.set i v }

/-- `pc <- t`. -/
def State.setPc (s : State) (t : Word) : State := { s with pc := t }

/-- `sext_N(v)` (R9). -/
def sext {n : Nat} (v : BitVec n) : Word := v.signExtend 16

/-- `zext_8(c)` (R9). -/
def zext8 (c : Byte) : Word := c.setWidth 16

/-- Second operand of ADD and AND, register form: `x[SR2]` (R83). -/
def op2Reg (sr2 : Reg) (s : State) : Word := s.reg sr2

/-- Second operand of ADD and AND, immediate form: `sext_5(imm5)` (R83). -/
def op2Imm (imm5 : BitVec 5) : Word := sext imm5

/-- PC-relative address with PCoffset9: the incremented pc plus `sext_9(off9)`, mod 2^16 (R84, R160). -/
def eaPc9 (off9 : BitVec 9) (s : State) : Word := s.pc + sext off9

/-- PC-relative target with PCoffset11 (R84, R145). -/
def eaPc11 (off11 : BitVec 11) (s : State) : Word := s.pc + sext off11

/-- Base plus offset address: `x[BaseR] + sext_6(off6)`, mod 2^16 (R84, R160). -/
def eaBase6 (base : Reg) (off6 : BitVec 6) (s : State) : Word := s.reg base + sext off6

end Sys2Proof.Machine
end

