-- ==== Sys2Proof/Machine/Flags.lean ====
section
/-! DEFINITION. The condition flags: the update `setcc` (spec/40_alu.md R120) and the test of BR
(spec/10_state.md R27, spec/41_control.md R141). -/

namespace Sys2Proof.Machine

/-- The flag that describes a word (R120). -/
def flagOf (v : Word) : Cond :=
  if v = 0x0000 then .z else if v.getLsbD 15 then .n else .p

/-- `setcc(i)`: `cond` from the value now in Ri (R120). -/
def setcc (i : Reg) (s : State) : State := { s with cond := flagOf (s.reg i) }

/-- The 3-bit one-hot encoding of `cond`: N = 100, Z = 010, P = 001 (R27). -/
def condBits : Cond → BitVec 3
  | .n => 0b100
  | .z => 0b010
  | .p => 0b001

/-- The test of BR: `(cond3 AND cond) != 0`, with `ir[11]` = n, `ir[10]` = z, `ir[9]` = p (R85, R141). -/
def branchTaken (n z p : Bool) (c : Cond) : Bool :=
  ((BitVec.ofBool n ++ BitVec.ofBool z ++ BitVec.ofBool p) &&& condBits c) != (0 : BitVec 3)

end Sys2Proof.Machine
end

