-- ==== Sys2Proof/Machine/Memory.lean ====
section
/-! DEFINITION. The memory array as sparse data (spec/20_memory.md R50, R51): what an unlisted cell reads as,
its canonical form, and the reading and writing of one cell. -/

namespace Sys2Proof.Machine

/-- What a cell that nothing has stored to holds: "zero-initialized" (R36). -/
def Memory.unlisted : Word := 0x0000

/-- The pairs from `lo` on: addresses strictly rising and below 65536, no cell equal to what an unlisted one holds. -/
def Memory.wfFrom : Nat → Memory → Bool
  | _, [] => true
  | lo, (k, v) :: rest => decide (lo ≤ k) && decide (k < 65536) && (v != Memory.unlisted) && Memory.wfFrom (k + 1) rest

/-- The canonical form: equal memories are equal lists. -/
def Memory.wf (m : Memory) : Bool := Memory.wfFrom 0 m

/-- The content of cell `k`. -/
def Memory.lookup : Memory → Nat → Word
  | [], _ => Memory.unlisted
  | (k, v) :: rest, a => if k = a then v else Memory.lookup rest a

/-- The pairs without those of cell `a`. -/
def Memory.erase : Memory → Nat → Memory
  | [], _ => []
  | (k, v) :: rest, a => if k = a then Memory.erase rest a else (k, v) :: Memory.erase rest a

/-- The pairs with `(a, v)` at its place; used where `a` is not listed. -/
def Memory.place : Memory → Nat → Word → Memory
  | [], a, v => [(a, v)]
  | (k, w) :: rest, a, v => if a < k then (a, v) :: (k, w) :: rest else (k, w) :: Memory.place rest a v

/-- `mem[a]`: the content of cell `a`, with no side effect (R10). -/
def Memory.read (m : Memory) (a : Word) : Word := Memory.lookup m a.toNat

/-- `mem[a] <- v` (R10, R56), keeping the canonical form. -/
def Memory.write (m : Memory) (a : Word) (v : Word) : Memory :=
  if v = Memory.unlisted then Memory.erase m a.toNat
  else Memory.place (Memory.erase m a.toNat) a.toNat v

end Sys2Proof.Machine
end

