-- ==== Sys2Proof/Machine/Ops.lean ====
section
/-! DEFINITION. The shared operations: the console primitives (spec/00_scope.md R13 to R15), `MemRead` and
`MemWrite` (spec/20_memory.md R53 to R57), the register write of a flag-setting instruction, taking a fatal
decode error (spec/60_exceptions.md R252) and the fetch (spec/45_execution_loop.md R231). There is no return
from an exception: the machine has none (R252, R257). -/

namespace Sys2Proof.Machine

/-- The character at position `n` of `CONSOLE_INPUT`, if it has one: a listed one, or past those one of the
endless stream when the input is endless (R6). -/
def State.inputAt (s : State) (n : Nat) : Option Byte :=
  match s.consoleInput[n]? with
  | some c => some c
  | none =>
    match s.inputTail with
    | .ended => none
    | .endless k => some (Config.endlessInput k n)

/-- The next unconsumed character of `CONSOLE_INPUT`, if there is one (R13, R14). -/
def nextChar (s : State) : Option Byte := s.inputAt s.inPos

/-- More characters arrive on an input that had ended, between two steps (R14, R238: "If a character arrives
later the step completes"). No instruction calls it; `ReachesWithArrivals` does. -/
def supplyInput (cs : List Byte) (s : State) : State := { s with consoleInput := s.consoleInput ++ cs }

/-- `ConsolePoll()` (R13): never blocks; finds a character only if an unconsumed one exists and the
environment says that it is available now (a free answer per poll, log entry 5), and consumes it. -/
def consolePoll (s : State) : Option Byte × State :=
  match nextChar s with
  | none => (none, { s with pollCount := s.pollCount + 1 })
  | some c =>
    if Config.pollAvailable s.pollCount then
      (some c, { s with pollCount := s.pollCount + 1, inPos := s.inPos + 1 })
    else (none, { s with pollCount := s.pollCount + 1 })

/-- `ConsolePut(c)` (R15). -/
def consolePut (c : Byte) (s : State) : State := { s with output := s.output ++ [c] }

/-- `ConsolePut` of each character of a text, in order (R195, R197). -/
def consolePutAll (cs : List Byte) (s : State) : State := { s with output := s.output ++ cs }

/-- `ConsoleFlush()` (R15): every character put so far has left the buffer. -/
def consoleFlush (s : State) : State := { s with flushed := s.output.length }

/-- `KeyboardPoll()` (R54): sets or clears bit 15 of KBSR and keeps its other bits; a character found goes
to KBDR, zero-extended. -/
def keyboardPoll (s : State) : State :=
  let r := consolePoll s
  let kbsr := s.mem.read Config.kbsrAddr
  match r.1 with
  | some c =>
    { r.2 with mem := (s.mem.write Config.kbsrAddr (kbsr ||| 0x8000)).write Config.kbdrAddr (zext8 c) }
  | none => { r.2 with mem := s.mem.write Config.kbsrAddr (kbsr &&& 0x7FFF) }

/-- `MemRead(addr, 1)` (R53): a read of KBSR polls first; every other read is plain (R55, R58). -/
def memRead (a : Word) (s : State) : Word × State :=
  if a = Config.kbsrAddr then
    let t := keyboardPoll s
    (t.mem.read a, t)
  else (s.mem.read a, s)

/-- `MemWrite(addr, 1, v)` (R56): an unconditional store, at the keyboard addresses too (R57). -/
def memWrite (a v : Word) (s : State) : State := { s with mem := s.mem.write a v }

/-- `x[DR] <- v` and then `setcc(DR)`: how every flag-setting instruction ends (R120). -/
def writeDest (dr : Reg) (v : Word) (s : State) : State := setcc dr (s.setReg dr v)

/-- `raise FatalDecode(cause)` (R252): the machine stops; nothing is saved, no handler is entered, and the pc
keeps the value the fetch gave it. -/
def raiseFatal (cause : FatalCause) (s : State) : State :=
  { s with run := .halted, fault := some cause }

/-- The fetch (R231): the word at `pc`, read through `MemRead`, and `pc` advanced by one. -/
def fetch (s : State) : Word × State :=
  let r := memRead s.pc s
  (r.1, { r.2 with pc := r.2.pc + 1 })

end Sys2Proof.Machine
end

