-- ==== Sys2Proof/Machine/Alu.lean ====
section
/-! DEFINITION. ADD, AND, NOT (spec/40_alu.md). -/

namespace Sys2Proof.Machine

/-- ADD, register form (R121). -/
def execAddReg (dr sr1 sr2 : Reg) (s : State) : Host.Outcome State Fault Refusal :=
  .next (writeDest dr (s.reg sr1 + op2Reg sr2 s) s)

/-- ADD, immediate form (R121). -/
def execAddImm (dr sr1 : Reg) (imm5 : BitVec 5) (s : State) : Host.Outcome State Fault Refusal :=
  .next (writeDest dr (s.reg sr1 + op2Imm imm5) s)

/-- AND, register form (R122). -/
def execAndReg (dr sr1 sr2 : Reg) (s : State) : Host.Outcome State Fault Refusal :=
  .next (writeDest dr (s.reg sr1 &&& op2Reg sr2 s) s)

/-- AND, immediate form (R122). -/
def execAndImm (dr sr1 : Reg) (imm5 : BitVec 5) (s : State) : Host.Outcome State Fault Refusal :=
  .next (writeDest dr (s.reg sr1 &&& op2Imm imm5) s)

/-- NOT (R123). -/
def execNot (dr sr : Reg) (s : State) : Host.Outcome State Fault Refusal :=
  .next (writeDest dr (~~~ s.reg sr) s)

end Sys2Proof.Machine
end

