-- ==== Sys2Proof/Machine/Control.lean ====
section
/-! DEFINITION. BR and NOP, JMP and RET, JSR, JSRR (spec/41_control.md). `pc` is the incremented pc (R140). -/

namespace Sys2Proof.Machine

/-- A conditional pc-relative branch (R141). -/
def branch (n z p : Bool) (off9 : BitVec 9) (s : State) : State :=
  if branchTaken n z p s.cond then s.setPc (eaPc9 off9 s) else s

/-- `pc <- x[BaseR]` (R143). -/
def jumpTo (base : Reg) (s : State) : State := s.setPc (s.reg base)

/-- BR (R141). -/
def execBr (n z p : Bool) (off9 : BitVec 9) (s : State) : Host.Outcome State Fault Refusal :=
  .next (branch n z p off9 s)

/-- NOP: BR with cond3 = 000, which never branches (R93, R141). -/
def execNop (off9 : BitVec 9) (s : State) : Host.Outcome State Fault Refusal :=
  .next (branch false false false off9 s)

/-- JMP (R143). -/
def execJmp (base : Reg) (s : State) : Host.Outcome State Fault Refusal :=
  .next (jumpTo base s)

/-- RET: JMP R7 (R144). -/
def execRet (s : State) : Host.Outcome State Fault Refusal :=
  .next (jumpTo .r7 s)

/-- JSR: R7 takes the incremented pc, which is also the base of the target (R145). -/
def execJsr (off11 : BitVec 11) (s : State) : Host.Outcome State Fault Refusal :=
  .next ((s.setReg .r7 s.pc).setPc (eaPc11 off11 s))

/-- JSRR: R7 is written first, then BaseR is read (R146, D13), so JSRR R7 falls through. -/
def execJsrr (base : Reg) (s : State) : Host.Outcome State Fault Refusal :=
  .next (jumpTo base (s.setReg .r7 s.pc))

end Sys2Proof.Machine
end

