-- ==== Sys2Proof/Machine/LoadStore.lean ====
section
/-! DEFINITION. LD, LDI, LDR, LEA, ST, STI, STR (spec/42_load_store.md). -/

namespace Sys2Proof.Machine

/-- A load of DR from an effective address through `MemRead` (R161, R163). -/
def loadInto (dr : Reg) (ea : Word) (s : State) : State :=
  let r := memRead ea s
  writeDest dr r.1 r.2

/-- LD (R161). -/
def execLd (dr : Reg) (off9 : BitVec 9) (s : State) : Host.Outcome State Fault Refusal :=
  .next (loadInto dr (eaPc9 off9 s) s)

/-- LDI: the pointer read, then the value read (R162, R168). -/
def execLdi (dr : Reg) (off9 : BitVec 9) (s : State) : Host.Outcome State Fault Refusal :=
  let ptr := memRead (eaPc9 off9 s) s
  .next (loadInto dr ptr.1 ptr.2)

/-- LDR (R163). -/
def execLdr (dr base : Reg) (off6 : BitVec 6) (s : State) : Host.Outcome State Fault Refusal :=
  .next (loadInto dr (eaBase6 base off6 s) s)

/-- LEA: the address itself; memory is not accessed, the flags are set (R164). -/
def execLea (dr : Reg) (off9 : BitVec 9) (s : State) : Host.Outcome State Fault Refusal :=
  .next (writeDest dr (eaPc9 off9 s) s)

/-- ST (R165). -/
def execSt (sr : Reg) (off9 : BitVec 9) (s : State) : Host.Outcome State Fault Refusal :=
  .next (memWrite (eaPc9 off9 s) (s.reg sr) s)

/-- STI: the pointer read, with its side effect, then the store (R166, R168). -/
def execSti (sr : Reg) (off9 : BitVec 9) (s : State) : Host.Outcome State Fault Refusal :=
  let ptr := memRead (eaPc9 off9 s) s
  .next (memWrite ptr.1 (s.reg sr) ptr.2)

/-- STR (R167). -/
def execStr (sr base : Reg) (off6 : BitVec 6) (s : State) : Host.Outcome State Fault Refusal :=
  .next (memWrite (eaBase6 base off6 s) (s.reg sr) s)

end Sys2Proof.Machine
end

