-- ==== Sys2Proof/Machine/Reserved.lean ====
section
/-! DEFINITION. The reserved opcodes RTI and RES (spec/44_reserved.md): each takes the fatal decode error. -/

namespace Sys2Proof.Machine

/-- RTI (R220). -/
def execRti (s : State) : Host.Outcome State Fault Refusal :=
  .next (raiseFatal (.reservedOpcode .rti) s)

/-- RES (R221). -/
def execRes (s : State) : Host.Outcome State Fault Refusal :=
  .next (raiseFatal (.reservedOpcode .res) s)

end Sys2Proof.Machine
end

