-- ==== Sys2Proof/Machine/Trap.lean ====
section
/-! DEFINITION. TRAP and the six console routines (spec/43_trap.md). A routine runs inside the TRAP's own step
(R191); only a read that finds no character yet leaves the step with the routine waiting (R236, R238). -/

namespace Sys2Proof.Machine

/-- What GETC and IN do with the character read: IN echoes it; both put it, zero-extended, in R0 (R192, R195). -/
def finishRead (which : BlockedRead) (c : Byte) (s : State) : State :=
  match which with
  | .getc => s.setReg .r0 (zext8 c)
  | .in_ => (consolePut c s).setReg .r0 (zext8 c)

/-- The character is consumed and the routine completes (R14). -/
def takeChar (which : BlockedRead) (c : Byte) (s : State) : State :=
  finishRead which c { s with inPos := s.inPos + 1, wait := none }

/-- `ConsoleGet()` and the rest of the routine; without a character the routine waits (R14, R238). -/
def consoleGet (which : BlockedRead) (s : State) : State :=
  match nextChar s with
  | some c => takeChar which c s
  | none => { s with wait := some which }

/-- A step of a machine that waits for a character: it completes the routine when a character is there, and
is stuck while none is (R14, R238, R265). -/
def resumeRead (which : BlockedRead) (s : State) : Host.Outcome State Fault Refusal :=
  match nextChar s with
  | some c => .next (takeChar which c s)
  | none => .fault .waitingForInput

/-- GETC (R192). -/
def trapGetc (s : State) : Host.Outcome State Fault Refusal := .next (consoleGet .getc s)

/-- OUT (R193). -/
def trapOut (s : State) : Host.Outcome State Fault Refusal :=
  .next (consoleFlush (consolePut ((s.reg .r0).setWidth 8) s))

/-- IN: the prompt, then the read (R195). -/
def trapIn (s : State) : Host.Outcome State Fault Refusal :=
  .next (consoleGet .in_ (consolePutAll Config.inPrompt s))

/-- One turn of the loop of PUTS at address `a` (R194): whether it ends the loop, and the state after it. The
whole word is tested, its low byte written. -/
def putsWord (a : Word) (s : State) : Bool × State :=
  let r := memRead a s
  if r.1 = 0x0000 then (true, r.2) else (false, consolePut (r.1.setWidth 8) r.2)

/-- One turn of the loop of PUTSP at address `a` (R196): low byte then high byte, ended by a zero in either. -/
def putspWord (a : Word) (s : State) : Bool × State :=
  let r := memRead a s
  let lo : Byte := r.1.extractLsb' 0 8
  let hi : Byte := r.1.extractLsb' 8 8
  if lo = 0x00 then (true, r.2)
  else if hi = 0x00 then (true, consolePut lo r.2)
  else (false, consolePut hi (consolePut lo r.2))

/-- The loop of a string routine from address `a` (R194, R196), as long as it takes: the state at its end, and
none exactly when it never ends. The pointer wraps from 0xFFFF to 0x0000. -/
def runToEnd (word : Word → State → Bool × State) (a : Word) (s : State) : Option State :=
  let r := word a s
  if r.1 then some r.2 else runToEnd word (a + 1) r.2
partial_fixpoint

/-- The same loop for at most `n` turns: none when they do not end it. -/
def runFor (word : Word → State → Bool × State) : Nat → Word → State → Option State
  | 0, _, _ => none
  | n + 1, a, s =>
    let r := word a s
    if r.1 then some r.2 else runFor word n (a + 1) r.2

/-- Once round all of memory, in words. -/
def memoryRound : Nat := 65536

/-- The loop of a string routine in a form that evaluates for every string that one round of memory ends; it is
`runToEnd` (`runString_eq`, log entry 10). -/
def runString (word : Word → State → Bool × State) (a : Word) (s : State) : Option State :=
  match runFor word memoryRound a s with
  | some t => some t
  | none => runToEnd word a s

/-- The end of a string routine: the flush; no step where the loop never ends (R194, R196, D21). -/
def endString (r : Option State) : Host.Outcome State Fault Refusal :=
  match r with
  | some t => .next (consoleFlush t)
  | none => .fault .stringUnterminated

/-- PUTS (R194). -/
def trapPuts (s : State) : Host.Outcome State Fault Refusal := endString (runString putsWord (s.reg .r0) s)

/-- PUTSP (R196). -/
def trapPutsp (s : State) : Host.Outcome State Fault Refusal := endString (runString putspWord (s.reg .r0) s)

/-- HALT: flush, the notice, flush, and the loop stops with no fault (R197). -/
def trapHalt (s : State) : Host.Outcome State Fault Refusal :=
  .next { consoleFlush (consolePutAll Config.haltNotice (consoleFlush s)) with run := .halted }

/-- The Trap Dispatcher: by the constant value of the vector; memory is not consulted (R190, R199). -/
def trapDispatch (v : Byte) (s : State) : Host.Outcome State Fault Refusal :=
  match v.toNat with
  | 0x20 => trapGetc s
  | 0x21 => trapOut s
  | 0x22 => trapPuts s
  | 0x23 => trapIn s
  | 0x24 => trapPutsp s
  | 0x25 => trapHalt s
  | _ => .next (raiseFatal (.unknownTrapVector v) s)

/-- TRAP (R190). -/
def execTrap (v : Byte) (s : State) : Host.Outcome State Fault Refusal := trapDispatch v s

/-- GETC as a mnemonic: TRAP 0x20 (R97, R192). -/
def execGetc (s : State) : Host.Outcome State Fault Refusal := trapGetc s

/-- OUT as a mnemonic: TRAP 0x21 (R97, R193). -/
def execOut (s : State) : Host.Outcome State Fault Refusal := trapOut s

/-- PUTS as a mnemonic: TRAP 0x22 (R97, R194). -/
def execPuts (s : State) : Host.Outcome State Fault Refusal := trapPuts s

/-- IN as a mnemonic: TRAP 0x23 (R97, R195). -/
def execIn (s : State) : Host.Outcome State Fault Refusal := trapIn s

/-- PUTSP as a mnemonic: TRAP 0x24 (R97, R196). -/
def execPutsp (s : State) : Host.Outcome State Fault Refusal := trapPutsp s

/-- HALT as a mnemonic: TRAP 0x25 (R97, R197). -/
def execHalt (s : State) : Host.Outcome State Fault Refusal := trapHalt s

end Sys2Proof.Machine
end

