-- ==== Sys2Proof/Machine/Step.lean ====
section
/-! DEFINITION. The one step of the machine (spec/45_execution_loop.md R236): fetch, decode, execute. In
HALTED there is no step (R237); a machine whose console read waits goes on with that read and fetches nothing (R191, R238). -/

namespace Sys2Proof.Machine

/-- One step (R236). -/
def step (s : State) : Host.Outcome State Fault Refusal :=
  match s.run with
  | .halted => .fault .halted
  | .running =>
    match s.wait with
    | some which => resumeRead which s
    | none => exec (decode (fetch s).1) (fetch s).2

/-- `s` with a table word placed so that the very next step fetches and runs it: the machine is RUNNING with
no fault and no waiting read, and the word stands at `pc`. At KBSR no word can be made to be fetched as it stands
(the fetch's own poll rewrites bit 15), so there `pc` is put at `PC_RESET`. -/
def State.withFetchWord (s : State) (nbits w : Nat) : State :=
  let pc := if s.pc = Config.kbsrAddr then Config.pcReset else s.pc
  { s with
    pc := pc
    mem := s.mem.write pc (BitVec.ofNat 16 (w % 2 ^ nbits))
    run := .running
    fault := none
    wait := none }

end Sys2Proof.Machine
end

