-- ==== Sys2Proof/Machine/Image.lean ====
section
/-! DEFINITION. The image-load contract (spec/70_reset_and_hazards.md R286 to R288): how the external loader
makes `MEM_INIT` of an image file. No instruction uses it; a `Launch` may. -/

namespace Sys2Proof.Machine

/-- The big-endian 16-bit words of a file (R286); none when a word lacks its second byte. -/
def imageWords : List Byte → Option (List Word)
  | [] => some []
  | [_] => none
  | hi :: lo :: rest => (imageWords rest).map ((hi ++ lo : Word) :: ·)

/-- The words stored at consecutive addresses from `a` on (R286). -/
def storeWords : Memory → Word → List Word → Memory
  | m, _, [] => m
  | m, a, w :: ws => storeWords (m.write a w) (a + 1) ws

/-- The memory an image leaves: its first word is the origin (R286, R287); a load failure when the file is
truncated or the origin plus the number of words after it exceeds 65536 (R287, R288, D28). -/
def loadImage (file : List Byte) : Option Memory :=
  match imageWords file with
  | some (origin :: ws) => if origin.toNat + ws.length ≤ 65536 then some (storeWords [] origin ws) else none
  | some [] => none
  | none => none

end Sys2Proof.Machine
end

