-- ==== Sys2Proof/Safety.lean ====
section
/-! DEFINITION. What counts as a sane state and as the end of a run, and the spec's tables that the claims are
stated with: which instruction sets the flags, writes a register, stores to memory, changes the pc. -/

namespace Sys2Proof.Machine

/-- What every reachable state satisfies: memory in canonical form; a recorded fault only in HALTED
(spec/10_state.md R31); a waiting read only in RUNNING (spec/45_execution_loop.md R238); the flush mark within
the output (R15); the input position within the input, where that ends (R34). -/
structure State.Inv (s : State) : Prop where
  mem_wf : s.mem.wf = true
  fault_halted : s.fault ≠ none → s.run = .halted
  wait_running : s.wait ≠ none → s.run = .running
  flushed_le : s.flushed ≤ s.output.length
  inPos_le : s.inputTail = .ended → s.inPos ≤ s.consoleInput.length

/-- The states a run from a state passes through. -/
inductive Reaches : State → State → Prop where
  | refl (s : State) : Reaches s s
  | step {s t u : State} (h : Reaches s t) (hs : Machine.step t = .next u) : Reaches s u

/-- The states a run passes through when characters may arrive between two steps on an input that had ended
(spec/45_execution_loop.md R238, spec/00_scope.md R14). -/
inductive ReachesWithArrivals : State → State → Prop where
  | refl (s : State) : ReachesWithArrivals s s
  | step {s t u : State} (h : ReachesWithArrivals s t) (hs : Machine.step t = .next u) : ReachesWithArrivals s u
  | arrive {s t : State} (h : ReachesWithArrivals s t) (he : t.inputTail = .ended) (cs : List Byte) :
      ReachesWithArrivals s (supplyInput cs t)

/-- The run ended by HALT (R237). -/
def EndedNormally (s : State) : Prop := s.run = .halted ∧ s.fault = none

/-- The run ended by a fatal decode error (R237, R253). -/
def EndedByFault (s : State) : Prop := s.run = .halted ∧ ∃ cause, s.fault = some cause

/-- The flag of a value, in the words of R120: ZERO iff it is 0, NEGATIVE iff it is 0x8000 or above read
unsigned, else POSITIVE. -/
def signCond (v : Word) : Cond :=
  if v.toNat = 0 then .z else if 0x8000 ≤ v.toNat then .n else .p

/-- The table of R28: the flag-setting instructions, each with the register its `setcc` reads. -/
def flagDest : Instr → Option Reg
  | .addReg dr _ _ => some dr
  | .addImm dr _ _ => some dr
  | .andReg dr _ _ => some dr
  | .andImm dr _ _ => some dr
  | .not dr _ => some dr
  | .ld dr _ => some dr
  | .ldi dr _ => some dr
  | .ldr dr _ _ => some dr
  | .lea dr _ => some dr
  | .br _ _ _ _ | .st _ _ | .jsr _ | .jsrr _ | .str _ _ _ | .rti | .sti _ _ | .jmp _ | .res | .trap _ | .ret
  | .getc | .out | .puts | .in_ | .putsp | .halt | .nop _ => none

/-- The table of R22, column "writes": the register an instruction writes. -/
def destReg : Instr → Option Reg
  | .addReg dr _ _ => some dr
  | .addImm dr _ _ => some dr
  | .andReg dr _ _ => some dr
  | .andImm dr _ _ => some dr
  | .not dr _ => some dr
  | .ld dr _ => some dr
  | .ldi dr _ => some dr
  | .ldr dr _ _ => some dr
  | .lea dr _ => some dr
  | .jsr _ => some .r7
  | .jsrr _ => some .r7
  | .getc => some .r0
  | .in_ => some .r0
  | .trap v => if v = 0x20 ∨ v = 0x23 then some .r0 else none
  | .br _ _ _ _ | .st _ _ | .str _ _ _ | .rti | .sti _ _ | .jmp _ | .res | .ret
  | .out | .puts | .putsp | .halt | .nop _ => none

/-- The address an instruction stores to (R59): ST, STI and STR store, nothing else does. -/
def storeAddr (s : State) : Instr → Option Word
  | .st _ off9 => some (eaPc9 off9 s)
  | .sti _ off9 => some (memRead (eaPc9 off9 s) s).1
  | .str _ base off6 => some (eaBase6 base off6 s)
  | .br _ _ _ _ | .addReg _ _ _ | .addImm _ _ _ | .ld _ _ | .jsr _ | .jsrr _ | .andReg _ _ _ | .andImm _ _ _
  | .ldr _ _ _ | .rti | .not _ _ | .ldi _ _ | .jmp _ | .res | .lea _ _ | .trap _ | .ret | .getc | .out | .puts
  | .in_ | .putsp | .halt | .nop _ => none

/-- The table of R59: the instructions whose execution reads or writes memory. -/
def accessesData : Instr → Bool
  | .ld _ _ | .ldi _ _ | .ldr _ _ _ | .st _ _ | .sti _ _ | .str _ _ _ | .puts | .putsp => true
  | .trap v => v == 0x22 || v == 0x24
  | .br _ _ _ _ | .addReg _ _ _ | .addImm _ _ _ | .jsr _ | .jsrr _ | .andReg _ _ _ | .andImm _ _ _
  | .rti | .not _ _ | .jmp _ | .res | .lea _ _ | .ret | .getc | .out | .in_ | .halt | .nop _ => false

/-- The table of R24: the instructions that may leave another `pc` than the incremented one. -/
def writesPc : Instr → Bool
  | .br _ _ _ _ | .jmp _ | .ret | .jsr _ | .jsrr _ => true
  | .addReg _ _ _ | .addImm _ _ _ | .ld _ _ | .st _ _ | .andReg _ _ _ | .andImm _ _ _ | .ldr _ _ _ | .str _ _ _
  | .rti | .not _ _ | .ldi _ _ | .sti _ _ | .res | .lea _ _ | .trap _ | .getc | .out | .puts | .in_ | .putsp
  | .halt | .nop _ => false

/-- The writers of the console output (spec/10_state.md section 1). -/
def writesOutput : Instr → Bool
  | .out | .puts | .in_ | .putsp | .halt => true
  | .trap v => v == 0x21 || v == 0x22 || v == 0x23 || v == 0x24 || v == 0x25
  | .br _ _ _ _ | .addReg _ _ _ | .addImm _ _ _ | .ld _ _ | .st _ _ | .jsr _ | .jsrr _ | .andReg _ _ _
  | .andImm _ _ _ | .ldr _ _ _ | .str _ _ _ | .rti | .not _ _ | .ldi _ _ | .sti _ _ | .jmp _ | .res | .lea _ _
  | .ret | .getc | .nop _ => false

/-- The loop of R194 as a relation: from address `a` in state `s`, PUTS reads the words `ws`, none zero, writes
the low byte of each, then reads a zero word and is in state `t`. -/
def PutsReads : List Word → Word → State → State → Prop
  | [], a, s, t => (memRead a s).1 = 0 ∧ t = (memRead a s).2
  | w :: ws, a, s, t =>
    (memRead a s).1 = w ∧ w ≠ 0 ∧ PutsReads ws (a + 1) (consolePut (w.setWidth 8) (memRead a s).2) t

/-- The low byte of a word, `w[7:0]` (R196). -/
def loByte (w : Word) : Byte := w.extractLsb' 0 8

/-- The high byte of a word, `w[15:8]` (R196). -/
def hiByte (w : Word) : Byte := w.extractLsb' 8 8

/-- The loop of R196 as a relation: PUTSP reads the words `ws`, no byte of them zero, writes low byte then high
byte of each, then reads a word with a zero byte and is in state `t`. -/
def PutspReads : List Word → Word → State → State → Prop
  | [], a, s, t =>
    (loByte (memRead a s).1 = 0 ∧ t = (memRead a s).2) ∨
    (loByte (memRead a s).1 ≠ 0 ∧ hiByte (memRead a s).1 = 0 ∧
      t = consolePut (loByte (memRead a s).1) (memRead a s).2)
  | w :: ws, a, s, t =>
    (memRead a s).1 = w ∧ loByte w ≠ 0 ∧ hiByte w ≠ 0 ∧
      PutspReads ws (a + 1) (consolePut (hiByte w) (consolePut (loByte w) (memRead a s).2)) t

/-- The outcome with a function applied to its next state. -/
def mapNext (f : State → State) : Host.Outcome State Fault Refusal → Host.Outcome State Fault Refusal
  | .next t => .next (f t)
  | .fault r => .fault r
  | .refused r => .refused r

end Sys2Proof.Machine
end

