-- ==== Sys2Proof/Certificates/Slice0/Obligations.lean ====
section
/-! DEFINITION. The statements for the provers. Each docstring names the rule of spec/ it formalises, or says
what it rests on. An instruction is executed with the incremented pc in `s.pc` (R24); sums are written as
numbers taken mod 2^16 (`BitVec.ofNat 16`). -/

open Sys2Proof Sys2Proof.Machine

/-! ### Start of a run -/

/-- The state a run starts from, for every launch, and that a cell no image covers is zero (spec/70_reset_and_hazards.md R281).
That the pc starts at the constant 0x3000, whatever the origin, is the decision D6. -/
def Obligations.LaunchStateIsAsSpecified : Prop :=
  ∀ l : Launch, (State.launch l).pc = 0x3000 ∧ (State.launch l).run = .running ∧ (State.launch l).fault = none ∧
    (∀ a, (State.launch l).mem.read a = l.memInit.read a) ∧ (∀ a, Memory.read [] a = 0) ∧
    (State.launch l).regs = l.gprReset ∧ (State.launch l).cond = l.condReset ∧
    (State.launch l).inPos = 0 ∧ (State.launch l).output = []

/-- The invariant of the model holds at the start of every run whose memory is in canonical form, and at
`State.reset`. -/
def Obligations.InvariantHoldsAtStart : Prop :=
  State.reset.Inv ∧ ∀ l : Launch, l.memInit.wf = true → (State.launch l).Inv

/-! ### Operands and flags -/

/-- R9: sign extension of the 5, 6, 9 and 11-bit fields, and zero extension of a character. -/
def Obligations.SignExtensionFillsWithTheTopBit : Prop :=
  (∀ v : BitVec 5, (sext v).toNat = if v.getLsbD 4 then v.toNat + (65536 - 2 ^ 5) else v.toNat) ∧
  (∀ v : BitVec 6, (sext v).toNat = if v.getLsbD 5 then v.toNat + (65536 - 2 ^ 6) else v.toNat) ∧
  (∀ v : BitVec 9, (sext v).toNat = if v.getLsbD 8 then v.toNat + (65536 - 2 ^ 9) else v.toNat) ∧
  (∀ v : BitVec 11, (sext v).toNat = if v.getLsbD 10 then v.toNat + (65536 - 2 ^ 11) else v.toNat) ∧
  (∀ c : Byte, (zext8 c).toNat = c.toNat)

/-- R120: `setcc(i)` sets `cond` from the value now in Ri and changes nothing else. -/
def Obligations.SetccReflectsTheRegister : Prop :=
  ∀ (i : Reg) (s : State), setcc i s = { s with cond := signCond (s.reg i) }

/-- The BR test on the one-hot encoding N = 100, Z = 010, P = 001 is the three-valued test (R27). The encoding is the
decision D4. -/
def Obligations.BranchTestIsTheThreeValuedTest : Prop :=
  condBits .p = 0b001 ∧ condBits .z = 0b010 ∧ condBits .n = 0b100 ∧
  ∀ (n z p : Bool) (c : Cond), branchTaken n z p c = true ↔
    (c = .n ∧ n = true) ∨ (c = .z ∧ z = true) ∨ (c = .p ∧ p = true)

/-! ### ADD, AND, NOT -/

/-- R121: ADD in both forms, with its whole next state. -/
def Obligations.AddWrapsAndSetsFlags : Prop :=
  ∀ (dr sr1 : Reg) (s : State),
    (∀ sr2 : Reg, exec (.addReg dr sr1 sr2) s = .next { s with
      regs := s.regs.set dr (BitVec.ofNat 16 ((s.reg sr1).toNat + (s.reg sr2).toNat))
      cond := signCond (BitVec.ofNat 16 ((s.reg sr1).toNat + (s.reg sr2).toNat)) }) ∧
    (∀ imm5 : BitVec 5, exec (.addImm dr sr1 imm5) s = .next { s with
      regs := s.regs.set dr (BitVec.ofNat 16 ((s.reg sr1).toNat + (sext imm5).toNat))
      cond := signCond (BitVec.ofNat 16 ((s.reg sr1).toNat + (sext imm5).toNat)) })

/-- R122: AND in both forms, bit by bit, with its whole next state. -/
def Obligations.AndIsBitwiseAndSetsFlags : Prop :=
  ∀ (dr sr1 : Reg) (s : State),
    (∀ sr2 : Reg, ∃ v : Word, (∀ k < 16, v.getLsbD k = ((s.reg sr1).getLsbD k && (s.reg sr2).getLsbD k)) ∧
      exec (.andReg dr sr1 sr2) s = .next { s with regs := s.regs.set dr v, cond := signCond v }) ∧
    (∀ imm5 : BitVec 5, ∃ v : Word, (∀ k < 16, v.getLsbD k = ((s.reg sr1).getLsbD k && (sext imm5).getLsbD k)) ∧
      exec (.andImm dr sr1 imm5) s = .next { s with regs := s.regs.set dr v, cond := signCond v })

/-- R123: NOT gives 0xFFFF - x[SR], with its whole next state. -/
def Obligations.NotComplementsAndSetsFlags : Prop :=
  ∀ (dr sr : Reg) (s : State), ∃ v : Word, v.toNat = 0xFFFF - (s.reg sr).toNat ∧
    exec (.not dr sr) s = .next { s with regs := s.regs.set dr v, cond := signCond v }

/-- R125: sign extension is idempotent on its own output; ADD #0 copies; AND of a register with itself copies. -/
def Obligations.ExtensionIdempotentAndCopies : Prop :=
  (∀ v : BitVec 5, sext ((sext v).extractLsb' 0 5) = sext v) ∧
  (∀ v : BitVec 6, sext ((sext v).extractLsb' 0 6) = sext v) ∧
  (∀ v : BitVec 9, sext ((sext v).extractLsb' 0 9) = sext v) ∧
  (∀ v : BitVec 11, sext ((sext v).extractLsb' 0 11) = sext v) ∧
  (∀ (dr sr : Reg) (s : State), exec (.addImm dr sr 0) s =
    .next { s with regs := s.regs.set dr (s.reg sr), cond := signCond (s.reg sr) }) ∧
  (∀ (dr sr : Reg) (s : State), exec (.andReg dr sr sr) s =
    .next { s with regs := s.regs.set dr (s.reg sr), cond := signCond (s.reg sr) })

/-! ### Control transfer -/

/-- R141: BR, with its whole next state in both cases. -/
def Obligations.BrBranchesIffFlagSelected : Prop :=
  ∀ (n z p : Bool) (off9 : BitVec 9) (s : State), exec (.br n z p off9) s = .next
    (if (n = true ∧ s.cond = .n) ∨ (z = true ∧ s.cond = .z) ∨ (p = true ∧ s.cond = .p) then
      { s with pc := BitVec.ofNat 16 (s.pc.toNat + (sext off9).toNat) } else s)

/-- R143, R144: JMP and RET. -/
def Obligations.JmpAndRetLoadThePc : Prop :=
  ∀ s : State, (∀ base : Reg, exec (.jmp base) s = .next { s with pc := s.reg base }) ∧
    exec .ret s = .next { s with pc := s.reg .r7 }

/-- R145: JSR. -/
def Obligations.JsrLinksAndJumps : Prop :=
  ∀ (off11 : BitVec 11) (s : State), exec (.jsr off11) s = .next { s with
    regs := s.regs.set .r7 s.pc
    pc := BitVec.ofNat 16 (s.pc.toNat + (sext off11).toNat) }

/-- JSRR writes R7 first, so JSRR R7 falls through (R146, by the decision D13). -/
def Obligations.JsrrReadsTheBaseAfterLinking : Prop :=
  ∀ (base : Reg) (s : State), exec (.jsrr base) s = .next { s with
    regs := s.regs.set .r7 s.pc
    pc := if base = .r7 then s.pc else s.reg base }

/-- An alias row adds no behaviour: it executes as its base row does (R97). That alias rows have constructors of their
own is the model's choice (log entry 7). -/
def Obligations.AliasesExecuteAsTheirBaseRow : Prop :=
  ∀ s : State, (∀ off9, exec (.nop off9) s = exec (.br false false false off9) s) ∧ exec .ret s = exec (.jmp .r7) s ∧
    exec .getc s = exec (.trap 0x20) s ∧ exec .out s = exec (.trap 0x21) s ∧ exec .puts s = exec (.trap 0x22) s ∧
    exec .in_ s = exec (.trap 0x23) s ∧ exec .putsp s = exec (.trap 0x24) s ∧ exec .halt s = exec (.trap 0x25) s

/-- BR with cond3 = 000 has no effect (R93, which the spec derives from R141). -/
def Obligations.NopHasNoEffect : Prop :=
  ∀ (off9 : BitVec 9) (s : State), exec (.nop off9) s = .next s ∧ exec (.br false false false off9) s = .next s

/-! ### Memory -/

/-- A read polls exactly at KBSR; what the poll writes; all other reads are plain (R53, R54, R55, with the decisions D5, D14
and D15). Whether the environment shows an unconsumed character to the poll is the model's free answer (log entry 5). -/
def Obligations.ReadPollsOnlyAtKbsr : Prop :=
  (∀ (a : Word) (s : State), a ≠ 0xFE00 → memRead a s = (s.mem.read a, s)) ∧
  ∀ s : State, match (if Config.pollAvailable s.pollCount then s.inputAt s.inPos else none) with
    | some c => ∃ m : Memory,
        memRead 0xFE00 s = (s.mem.read 0xFE00 ||| 0x8000,
          { s with mem := m, inPos := s.inPos + 1, pollCount := s.pollCount + 1 }) ∧
        m.read 0xFE00 = s.mem.read 0xFE00 ||| 0x8000 ∧ m.read 0xFE02 = zext8 c ∧
        ∀ b, b ≠ 0xFE00 → b ≠ 0xFE02 → m.read b = s.mem.read b
    | none => ∃ m : Memory,
        memRead 0xFE00 s = (s.mem.read 0xFE00 &&& 0x7FFF, { s with mem := m, pollCount := s.pollCount + 1 }) ∧
        m.read 0xFE00 = s.mem.read 0xFE00 &&& 0x7FFF ∧ ∀ b, b ≠ 0xFE00 → m.read b = s.mem.read b

/-- R56, R57: a write stores the word, at the keyboard addresses too, and changes nothing else. -/
def Obligations.WriteStoresOneCell : Prop :=
  ∀ (a v : Word) (s : State), (∀ b, (memWrite a v s).mem.read b = if b = a then v else s.mem.read b) ∧
    memWrite a v s = { s with mem := (memWrite a v s).mem }

/-- R161: LD, through `MemRead`, with its whole next state. -/
def Obligations.LdLoadsPcRelative : Prop :=
  ∀ (dr : Reg) (off9 : BitVec 9) (s : State), exec (.ld dr off9) s =
    .next { (memRead (BitVec.ofNat 16 (s.pc.toNat + (sext off9).toNat)) s).2 with
      regs := s.regs.set dr (memRead (BitVec.ofNat 16 (s.pc.toNat + (sext off9).toNat)) s).1
      cond := signCond (memRead (BitVec.ofNat 16 (s.pc.toNat + (sext off9).toNat)) s).1 }

/-- R163: LDR; the address is computed from the old base, also when DR is the base. -/
def Obligations.LdrLoadsBasePlusOffset : Prop :=
  ∀ (dr base : Reg) (off6 : BitVec 6) (s : State), exec (.ldr dr base off6) s =
    .next { (memRead (BitVec.ofNat 16 ((s.reg base).toNat + (sext off6).toNat)) s).2 with
      regs := s.regs.set dr (memRead (BitVec.ofNat 16 ((s.reg base).toNat + (sext off6).toNat)) s).1
      cond := signCond (memRead (BitVec.ofNat 16 ((s.reg base).toNat + (sext off6).toNat)) s).1 }

/-- R162: LDI is two reads in order, the flags from the final value. -/
def Obligations.LdiReadsPointerThenValue : Prop :=
  ∀ (dr : Reg) (off9 : BitVec 9) (s s1 s2 : State) (a v : Word),
    memRead (BitVec.ofNat 16 (s.pc.toNat + (sext off9).toNat)) s = (a, s1) → memRead a s1 = (v, s2) →
    exec (.ldi dr off9) s = .next { s2 with regs := s.regs.set dr v, cond := signCond v }

/-- R162, the source's property: with the pointer A at the address and V at A, neither of them read from KBSR,
LDI gives DR = V and leaves memory and the console alone. -/
def Obligations.LdiFollowsOneIndirection : Prop :=
  ∀ (dr : Reg) (off9 : BitVec 9) (s : State) (a v : Word),
    s.mem.read (BitVec.ofNat 16 (s.pc.toNat + (sext off9).toNat)) = a → s.mem.read a = v →
    BitVec.ofNat 16 (s.pc.toNat + (sext off9).toNat) ≠ 0xFE00 → a ≠ 0xFE00 →
    exec (.ldi dr off9) s = .next { s with regs := s.regs.set dr v, cond := signCond v }

/-- R164: LEA. -/
def Obligations.LeaGivesTheAddressAndSetsFlags : Prop :=
  ∀ (dr : Reg) (off9 : BitVec 9) (s : State), exec (.lea dr off9) s = .next { s with
    regs := s.regs.set dr (BitVec.ofNat 16 (s.pc.toNat + (sext off9).toNat))
    cond := signCond (BitVec.ofNat 16 (s.pc.toNat + (sext off9).toNat)) }

/-- R165, R167: ST and STR store one word and change nothing else. -/
def Obligations.StAndStrStoreOneWord : Prop :=
  (∀ (sr : Reg) (off9 : BitVec 9) (s : State), ∃ t : State, exec (.st sr off9) s = .next t ∧
    t = { s with mem := t.mem } ∧
    ∀ b, t.mem.read b = if b = BitVec.ofNat 16 (s.pc.toNat + (sext off9).toNat) then s.reg sr else s.mem.read b) ∧
  (∀ (sr base : Reg) (off6 : BitVec 6) (s : State), ∃ t : State, exec (.str sr base off6) s = .next t ∧
    t = { s with mem := t.mem } ∧
    ∀ b, t.mem.read b =
      if b = BitVec.ofNat 16 ((s.reg base).toNat + (sext off6).toNat) then s.reg sr else s.mem.read b)

/-- R166: STI reads the pointer through `MemRead`, then stores one word. -/
def Obligations.StiStoresThroughThePointer : Prop :=
  ∀ (sr : Reg) (off9 : BitVec 9) (s s1 : State) (a : Word),
    memRead (BitVec.ofNat 16 (s.pc.toNat + (sext off9).toNat)) s = (a, s1) →
    ∃ t : State, exec (.sti sr off9) s = .next t ∧ t = { s1 with mem := t.mem } ∧
      ∀ b, t.mem.read b = if b = a then s.reg sr else s1.mem.read b

/-! ### TRAP and the console routines -/

/-- GETC consumes the next character into R0, zero-extended, with no echo and no flag; nothing else changes (R192, with the
decision D17). That a waiting read, if this was one, is over is the model's (log entry 9). -/
def Obligations.GetcReadsOneCharacter : Prop :=
  ∀ (s : State) (c : Byte), s.inputAt s.inPos = some c → exec .getc s = .next { s with
    regs := s.regs.set .r0 (zext8 c)
    inPos := s.inPos + 1
    wait := none }

/-- IN writes the prompt, consumes the next character, echoes it and puts it in R0 (R195, with the decisions D17 and D22). The
prompt is a free value (log entry 4), the flush mark left as it is the model's (log entry 8), that no read waits
afterwards (`wait := none`) the model's choice (log entry 9). -/
def Obligations.InPromptsReadsAndEchoes : Prop :=
  ∀ (s : State) (c : Byte), s.inputAt s.inPos = some c → exec .in_ s = .next { s with
    regs := s.regs.set .r0 (zext8 c)
    inPos := s.inPos + 1
    output := s.output ++ Config.inPrompt ++ [c]
    wait := none }

/-- R14, R236, R238: without a character GETC has changed nothing and IN has written its prompt, and the machine waits.
That the wait is a state of its own is the model's choice (log entry 9). -/
def Obligations.BlockingReadWaits : Prop :=
  ∀ s : State, s.inputAt s.inPos = none →
    exec .getc s = .next { s with wait := some .getc } ∧
    exec .in_ s = .next { s with wait := some .in_, output := s.output ++ Config.inPrompt }

/-- R14, R238, R265: a waiting machine is stuck while no character is there; when characters arrive the step completes
the routine with the first of them, all other state having survived the wait (log entry 9). -/
def Obligations.WaitEndsWhenACharacterArrives : Prop :=
  ∀ (s : State) (c : Byte) (cs : List Byte), s.run = .running → s.inputTail = .ended → s.inPos = s.consoleInput.length →
    (s.wait = some .getc → step s = .fault .waitingForInput ∧
      step (supplyInput (c :: cs) s) = .next { s with
        consoleInput := s.consoleInput ++ c :: cs
        inPos := s.inPos + 1
        regs := s.regs.set .r0 (zext8 c)
        wait := none }) ∧
    (s.wait = some .in_ → step s = .fault .waitingForInput ∧
      step (supplyInput (c :: cs) s) = .next { s with
        consoleInput := s.consoleInput ++ c :: cs
        inPos := s.inPos + 1
        regs := s.regs.set .r0 (zext8 c)
        output := s.output ++ [c]
        wait := none })

/-- OUT writes the low byte of R0 and flushes (R193). The flush mark is the model's (log entry 8). -/
def Obligations.OutWritesTheLowByte : Prop :=
  ∀ s : State, exec .out s = .next { s with
    output := s.output ++ [BitVec.ofNat 8 ((s.reg .r0).toNat % 256)]
    flushed := s.output.length + 1 }

/-- HALT writes the notice, leaves nothing unflushed and stops the loop with no fault recorded (R197, with the decision D22).
The notice is a free value (log entry 4), the flush mark the model's (log entry 8). -/
def Obligations.HaltStopsTheLoop : Prop :=
  ∀ s : State, exec .halt s = .next { s with
    output := s.output ++ Config.haltNotice
    flushed := s.output.length + Config.haltNotice.length
    run := .halted }

/-- For a string that does not cover KBSR: PUTS writes the low bytes of the words before the zero word, and changes nothing
else (R194). The flush mark is the model's (log entry 8). -/
def Obligations.PutsWritesTheString : Prop :=
  ∀ (s : State) (ws : List Word),
    (∀ i (h : i < ws.length), s.mem.read (s.reg .r0 + BitVec.ofNat 16 i) = ws[i] ∧ ws[i] ≠ 0) →
    s.mem.read (s.reg .r0 + BitVec.ofNat 16 ws.length) = 0 →
    (∀ i ≤ ws.length, s.reg .r0 + BitVec.ofNat 16 i ≠ 0xFE00) →
    exec .puts s = .next { s with
      output := s.output ++ ws.map fun w => BitVec.ofNat 8 (w.toNat % 256)
      flushed := s.output.length + ws.length }

/-- For every string, one that covers KBSR included and however long (R194, decision D20): PUTS, in its one step, ends as the
loop's reads end, then flushes. The flush mark is the model's (log entry 8). -/
def Obligations.PutsFollowsItsReads : Prop :=
  ∀ (s t : State) (ws : List Word), PutsReads ws (s.reg .r0) s t →
    exec .puts s = .next { t with flushed := t.output.length }

/-- For a string that does not cover KBSR: PUTSP writes low byte then high byte of each word up to the first zero byte, and
changes nothing else (R196). The flush mark is the model's (log entry 8). -/
def Obligations.PutspWritesThePackedString : Prop :=
  ∀ (s : State) (ws : List Word) (last : Word),
    (∀ i (h : i < ws.length),
      s.mem.read (s.reg .r0 + BitVec.ofNat 16 i) = ws[i] ∧ loByte ws[i] ≠ 0 ∧ hiByte ws[i] ≠ 0) →
    s.mem.read (s.reg .r0 + BitVec.ofNat 16 ws.length) = last → (loByte last = 0 ∨ hiByte last = 0) →
    (∀ i ≤ ws.length, s.reg .r0 + BitVec.ofNat 16 i ≠ 0xFE00) →
    ∃ out : List Byte,
      out = ws.flatMap (fun w => [loByte w, hiByte w]) ++ (if loByte last = 0 then [] else [loByte last]) ∧
      exec .putsp s = .next { s with output := s.output ++ out, flushed := s.output.length + out.length }

/-- For every string, one that covers KBSR included and however long (R196, decision D20): PUTSP, in its one step, ends as the
loop's reads end, then flushes. The flush mark is the model's (log entry 8). -/
def Obligations.PutspFollowsItsReads : Prop :=
  ∀ (s t : State) (ws : List Word), PutspReads ws (s.reg .r0) s t →
    exec .putsp s = .next { t with flushed := t.output.length }

/-- Where no terminator can ever be met the string routines have no step, which the decision D21 allows and the model chooses
(log entry 10): for PUTS no zero word in any cell, KBSR included when its bit 15 is clear, and no zero character left in
the input, finite or endless; for PUTSP no zero byte in any cell and no input left, since any character put in KBDR leaves
its high byte zero. -/
def Obligations.StringWithoutTerminatorHasNoStep : Prop :=
  ∀ s : State,
    ((∀ a, s.mem.read a ≠ 0) → s.mem.read 0xFE00 &&& 0x7FFF ≠ 0 → (∀ n, s.inPos ≤ n → s.inputAt n ≠ some 0) →
      exec .puts s = .fault .stringUnterminated) ∧
    ((∀ a, loByte (s.mem.read a) ≠ 0 ∧ hiByte (s.mem.read a) ≠ 0) → hiByte (s.mem.read 0xFE00 &&& 0x7FFF) ≠ 0 →
      s.inputAt s.inPos = none → exec .putsp s = .fault .stringUnterminated)

/-- R198, R252: a vector outside 0x20 to 0x25 takes the fatal decode error, and nothing else changes. -/
def Obligations.UnknownVectorIsFatal : Prop :=
  ∀ (v : Byte) (s : State), v.toNat < 0x20 ∨ 0x25 < v.toNat →
    exec (.trap v) s = .next { s with run := .halted, fault := some (.unknownTrapVector v) }

/-- R220, R221: RTI and RES always take the fatal decode error, and nothing else changes. -/
def Obligations.ReservedOpcodesAreFatal : Prop :=
  ∀ s : State,
    exec .rti s = .next { s with run := .halted, fault := some (.reservedOpcode .rti) } ∧
    exec .res s = .next { s with run := .halted, fault := some (.reservedOpcode .res) }

/-- Memory has no influence on a trap that reads no string (R199): with any other memory it does the same. PUTS and PUTSP are
left out because the string they read may lie anywhere. -/
def Obligations.TrapsIgnoreTheVectorTable : Prop :=
  ∀ (v : Byte) (m : Memory) (s : State), v ≠ 0x22 → v ≠ 0x24 →
    exec (.trap v) { s with mem := m } = mapNext (fun t => { t with mem := m }) (exec (.trap v) s)

/-! ### Frames over all instructions -/

/-- R28: `cond` is written by the flag-setting instructions, from the register they wrote, and only by those. -/
def Obligations.FlagsAreWrittenBySevenInstructionsOnly : Prop :=
  ∀ (i : Instr) (s t : State), exec i s = .next t →
    t.cond = match flagDest i with
      | some dr => signCond (t.reg dr)
      | none => s.cond

/-- No instruction changes another register than the one the table of R22, which the spec derives from the instruction rules,
gives it in its column "writes". -/
def Obligations.OnlyTheDestinationRegisterChanges : Prop :=
  ∀ (i : Instr) (s t : State) (r : Reg), exec i s = .next t → destReg i ≠ some r → t.reg r = s.reg r

/-- An instruction changes no cell but the one it stores to and, by a poll, the two keyboard cells; one that accesses no
data changes no memory at all (the table of R59, with the decisions D10 and D20). -/
def Obligations.OnlyStoredAndKeyboardCellsChange : Prop :=
  ∀ (i : Instr) (s t : State), exec i s = .next t →
    (accessesData i = false → t.mem = s.mem) ∧
    ∀ b, storeAddr s i ≠ some b → b ≠ 0xFE00 → b ≠ 0xFE02 → t.mem.read b = s.mem.read b

/-- R24: `pc` stays the incremented pc except by BR, JMP, RET, JSR and JSRR. -/
def Obligations.PcStaysIncrementedExceptByControlTransfer : Prop :=
  ∀ (i : Instr) (s t : State), exec i s = .next t → writesPc i = false → t.pc = s.pc

/-- The console output is written by OUT, PUTS, IN, PUTSP and HALT only, and only those move the flush mark; of those that
flush, every character put has left the buffer (spec/10_state.md section 1, R12, R15). The flush mark is the model's (log entry 8). -/
def Obligations.OutputIsWrittenByFiveRoutinesOnly : Prop :=
  ∀ (i : Instr) (s t : State), exec i s = .next t →
    (writesOutput i = false → t.output = s.output ∧ t.flushed = s.flushed) ∧
    (i = .out ∨ i = .puts ∨ i = .putsp ∨ i = .halt → t.flushed = t.output.length) ∧
    (i = .in_ → t.flushed = s.flushed)

/-- R92: executing a word takes the fatal decode error exactly for the words the rule lists. -/
def Obligations.IllegalWordsAreExactlyTheListedOnes : Prop :=
  ∀ (w : Word) (s t : State), s.fault = none → exec (decode w) s = .next t →
    (t.fault ≠ none ↔ w.extractLsb' 12 4 = 0x8 ∨ w.extractLsb' 12 4 = 0xD ∨
      (w.extractLsb' 12 4 = 0xF ∧ (w.toNat % 256 < 0x20 ∨ 0x25 < w.toNat % 256)))

/-! ### The step -/

/-- The step of a running machine fetches through `MemRead` at `pc`, advances `pc` by one and executes the decoded
instruction; from any cell but KBSR the fetch changes nothing else (R231, R236, with the decision D10). -/
def Obligations.StepRunsTheFetchedInstruction : Prop :=
  ∀ s : State, s.run = .running → s.wait = none →
    step s = exec (decode (memRead s.pc s).1)
      { (memRead s.pc s).2 with pc := BitVec.ofNat 16 (s.pc.toNat + 1) } ∧
    (s.pc ≠ 0xFE00 →
      step s = exec (decode (s.mem.read s.pc)) { s with pc := BitVec.ofNat 16 (s.pc.toNat + 1) })

/-- A fetch from a zero KBSR polls, and the whole next state: with a character the word is 0x8000, which is RTI and ends the
run; with none it is the no-op 0x0000 (R282, an inference of the spec from R59, with the decisions D5 and D10). Whether the
poll sees an unconsumed character is the model's free answer (log entry 5). -/
def Obligations.FetchFromKbsrExecutesTheStatusWord : Prop :=
  ∀ s : State, s.run = .running → s.wait = none → s.pc = 0xFE00 → s.mem.read 0xFE00 = 0 →
    match (if Config.pollAvailable s.pollCount then s.inputAt s.inPos else none) with
    | some c => ∃ m : Memory,
        step s = .next { s with
          mem := m, inPos := s.inPos + 1, pollCount := s.pollCount + 1, pc := 0xFE01
          run := .halted, fault := some (.reservedOpcode .rti) } ∧
        m.read 0xFE00 = 0x8000 ∧ m.read 0xFE02 = zext8 c ∧ ∀ b, b ≠ 0xFE00 → b ≠ 0xFE02 → m.read b = s.mem.read b
    | none => ∃ m : Memory,
        step s = .next { s with mem := m, pollCount := s.pollCount + 1, pc := 0xFE01 } ∧
        ∀ b, m.read b = s.mem.read b

/-- In HALTED there is no step, so nothing changes after the end of a run (R237, by the decision D25; log entry 14). -/
def Obligations.HaltedIsTerminal : Prop :=
  ∀ s t : State, s.run = .halted → Reaches s t → t = s

/-- A step enters HALTED only by HALT, with no fault recorded by it, or by a fatal decode error, with its cause recorded
(R30, R237; the names of the causes are the decision D24). -/
def Obligations.HaltedIsEnteredByHaltOrFatalErrorOnly : Prop :=
  ∀ s t : State, step s = .next t → t.run = .halted →
    (decode (memRead s.pc s).1 = .halt ∧ t.fault = s.fault) ∨
    (decode (memRead s.pc s).1 = .rti ∧ t.fault = some (.reservedOpcode .rti)) ∨
    (decode (memRead s.pc s).1 = .res ∧ t.fault = some (.reservedOpcode .res)) ∨
    (∃ v : Byte, decode (memRead s.pc s).1 = .trap v ∧ t.fault = some (.unknownTrapVector v))

/-- From any state that satisfies the invariant, a run that has recorded a fault is HALTED and stays exactly as the fault left
it (R253; that HALTED has no step is the stop of log entry 14). -/
def Obligations.FaultIsNeverClearedOrSurvived : Prop :=
  ∀ s t u : State, s.Inv → Reaches s t → t.fault ≠ none → t.run = .halted ∧ (Reaches t u → u = t)

/-- A store to the next instruction's address is seen by the next fetch (R68, which the spec derives from R59 and R65). -/
def Obligations.StoreIsSeenByTheNextFetch : Prop :=
  ∀ (s : State) (sr : Reg), s.run = .running → s.wait = none → s.pc ≠ 0xFE00 → s.pc ≠ 0xFDFF →
    decode (s.mem.read s.pc) = .st sr 0 →
    ∃ t : State, step s = .next t ∧ t.pc = s.pc + 1 ∧
      step t = exec (decode (s.reg sr)) { t with pc := s.pc + 2 }

/-- The invariant of the model is kept by every step. -/
def Obligations.EveryStepKeepsTheInvariant : Prop :=
  ∀ s t : State, s.Inv → step s = .next t → t.Inv

/-- Along every run the output only grows at its end, the input position never goes back, and the environment's input is not
changed by the machine (R34, with the decisions D15 and D23). -/
def Obligations.RunsOnlyAppendOutputAndConsumeInput : Prop :=
  ∀ s t : State, Reaches s t →
    (∃ cs, t.output = s.output ++ cs) ∧ s.inPos ≤ t.inPos ∧ t.consoleInput = s.consoleInput ∧ t.inputTail = s.inputTail

/-- Placing a word with `withFetchWord` makes the very next step execute that word's instruction; the word stands at pc, or at
`PC_RESET` when pc is KBSR (the model's own convention, log entry 11). -/
def Obligations.PlacedWordRunsNext : Prop :=
  ∀ (s : State) (w : Word),
    step (s.withFetchWord 16 w.toNat) = exec (decode w) { s with
      pc := (if s.pc = Config.kbsrAddr then Config.pcReset else s.pc) + 1
      mem := s.mem.write (if s.pc = Config.kbsrAddr then Config.pcReset else s.pc) w
      run := .running, fault := none, wait := none }

/-! ### Encoding -/

/-- Decoding the word of a canonical instruction gives that instruction back, with every operand. The decoder is R98, which the
spec derives from R80 to R91; what is canonical is the model's choice (log entry 7). -/
def Obligations.DecodeOfEncodeIsIdentity : Prop :=
  ∀ i : Instr, i.wf = true → decode (encode i) = i

/-- Every word decodes to a canonical instruction, whose opcode-table row the word selects (R94 and R98, derived by the spec;
log entry 7). -/
def Obligations.EveryWordSelectsItsRow : Prop :=
  ∀ w : Word, (decode w).wf = true ∧ w &&& (decode w).row.1 = (decode w).row.2

/-- The bits no field uses do not matter (R87, by the decision D12). -/
def Obligations.IgnoredBitsDoNotMatter : Prop :=
  ∀ w x : Word,
    (w &&& 0xF020 = 0x1000 ∨ w &&& 0xF020 = 0x5000 → decode (w ^^^ (x &&& 0x0018)) = decode w) ∧
    (w &&& 0xF000 = 0x9000 → decode (w ^^^ (x &&& 0x003F)) = decode w) ∧
    (w &&& 0xF000 = 0xC000 → decode (w ^^^ (x &&& 0x0E3F)) = decode w) ∧
    (w &&& 0xF800 = 0x4000 → decode (w ^^^ (x &&& 0x063F)) = decode w) ∧
    (w &&& 0xF000 = 0xF000 → decode (w ^^^ (x &&& 0x0F00)) = decode w) ∧
    (w &&& 0xF000 = 0x8000 ∨ w &&& 0xF000 = 0xD000 → decode (w ^^^ (x &&& 0x0FFF)) = decode w)

/-- Words written out from the formats of R81 and the numbers of R90 and R91 (the decisions D2 and D3) decode to the
instructions they stand for. -/
def Obligations.SampleWordsDecode : Prop :=
  decode 0b0000010000000010 = .br false true false 2 ∧ decode 0b0001000001000010 = .addReg .r0 .r1 .r2 ∧
  decode 0b0001000000111111 = .addImm .r0 .r0 0x1F ∧ decode 0b1001001010111111 = .not .r1 .r2 ∧
  decode 0b0100100000000011 = .jsr 3 ∧ decode 0b0100000010000000 = .jsrr .r2 ∧
  decode 0b0110100010111111 = .ldr .r4 .r2 0x3F ∧ decode 0b1011001000000001 = .sti .r1 1 ∧
  decode 0b1100000111000000 = .ret ∧ decode 0b1111000000100101 = .halt ∧ decode 0b1111000000100110 = .trap 0x26 ∧
  decode 0b1101000000000000 = .res ∧ decode 0b1000000000000000 = .rti

/-! ### The image -/

/-- An image that fits leaves its words at consecutive addresses from its origin and zero elsewhere, in a memory in canonical
form; one that does not fit is a load failure (R286, R287, with the decision D28). -/
def Obligations.ImageIsStoredFromItsOrigin : Prop :=
  ∀ (origin : Word) (ws : List Word),
    match loadImage ((origin :: ws).flatMap fun w => [hiByte w, loByte w]) with
    | some m => origin.toNat + ws.length ≤ 65536 ∧ m.wf = true ∧
        ∀ a : Word, m.read a = if origin.toNat ≤ a.toNat then ws.getD (a.toNat - origin.toNat) 0 else 0
    | none => 65536 < origin.toNat + ws.length

/-! ### Strings without an end, and arriving input -/

/-- PUTS and PUTSP stop exactly where their loop never ends: where no finite sequence of reads comes to a terminator. That they
then have no step is the choice the decision D21 leaves to a model (log entry 10). -/
def Obligations.StringRoutineStopsExactlyWhereItNeverEnds : Prop :=
  ∀ s : State,
    (exec .puts s = .fault .stringUnterminated ↔ ∀ (ws : List Word) (t : State), ¬ PutsReads ws (s.reg .r0) s t) ∧
    (exec .putsp s = .fault .stringUnterminated ↔ ∀ (ws : List Word) (t : State), ¬ PutspReads ws (s.reg .r0) s t)

/-- Along every run during which characters arrive on an input that had ended: the invariant is kept, the output only grows at
its end, the input position never goes back, and the input is only extended, an endless one not even that (R14, R34, R238,
with the decision D15). That characters arrive between two steps is the model's choice (log entry 6). -/
def Obligations.RunsWithArrivalsKeepTheInvariant : Prop :=
  ∀ s t : State, ReachesWithArrivals s t →
    (s.Inv → t.Inv) ∧ (∃ cs, t.output = s.output ++ cs) ∧ s.inPos ≤ t.inPos ∧
    (∃ cs, t.consoleInput = s.consoleInput ++ cs) ∧ t.inputTail = s.inputTail ∧
    (s.inputTail ≠ .ended → t.consoleInput = s.consoleInput)
end

