-- ==== Sys2Proof/Laws/Memory.lean ====
section
/-! SUPPORT. The laws of memory: read after write, the canonical form is kept, equal contents are equal data. -/

namespace Sys2Proof.Machine

theorem Memory.lookup_erase_self (m : Memory) (a : Nat) : Memory.lookup (Memory.erase m a) a = Memory.unlisted := by
  induction m with
  | nil => rfl
  | cons c rest ih =>
    obtain ⟨k, v⟩ := c
    by_cases h : k = a <;> simp [Memory.erase, Memory.lookup, h, ih]

theorem Memory.lookup_erase_ne {a b : Nat} (m : Memory) (h : b ≠ a) :
    Memory.lookup (Memory.erase m a) b = Memory.lookup m b := by
  induction m with
  | nil => rfl
  | cons c rest ih =>
    obtain ⟨k, v⟩ := c
    by_cases hk : k = a
    · subst hk; simp [Memory.erase, Memory.lookup, ih, Ne.symm h]
    · simp [Memory.erase, Memory.lookup, hk, ih]

theorem Memory.lookup_place_self {m : Memory} {a : Nat} {v : Word} (h : Memory.lookup m a = Memory.unlisted)
    (hm : ∀ w, (a, w) ∉ m) : Memory.lookup (Memory.place m a v) a = v := by
  induction m with
  | nil => simp [Memory.place, Memory.lookup]
  | cons c rest ih =>
    obtain ⟨k, w⟩ := c
    have hk : k ≠ a := fun e => hm w (by simp [e])
    by_cases hlt : a < k
    · simp [Memory.place, Memory.lookup, hlt]
    · simp only [Memory.lookup, if_neg hk] at h
      simp [Memory.place, Memory.lookup, hlt, hk, ih h fun w' hw => hm w' (List.mem_cons_of_mem _ hw)]

theorem Memory.lookup_place_ne {a b : Nat} (m : Memory) (v : Word) (h : b ≠ a) :
    Memory.lookup (Memory.place m a v) b = Memory.lookup m b := by
  induction m with
  | nil => simp [Memory.place, Memory.lookup, Ne.symm h]
  | cons c rest ih =>
    obtain ⟨k, w⟩ := c
    by_cases hlt : a < k
    · simp [Memory.place, Memory.lookup, hlt, Ne.symm h]
    · simp [Memory.place, Memory.lookup, hlt, ih]

theorem Memory.not_mem_erase (m : Memory) (a : Nat) (w : Word) : (a, w) ∉ Memory.erase m a := by
  induction m with
  | nil => simp [Memory.erase]
  | cons c rest ih =>
    obtain ⟨k, v⟩ := c
    by_cases hk : k = a
    · simp [Memory.erase, hk, ih]
    · simp [Memory.erase, hk, ih, Ne.symm hk]

/-- A read of the cell just written gives the word written. -/
@[simp] theorem Memory.read_write_self (m : Memory) (a v : Word) : (m.write a v).read a = v := by
  unfold Memory.write Memory.read
  split
  · next h => rw [h, Memory.lookup_erase_self]
  · exact Memory.lookup_place_self (Memory.lookup_erase_self m _) (Memory.not_mem_erase m _)

/-- A write leaves every other cell alone. -/
theorem Memory.read_write_ne (m : Memory) {a b : Word} (v : Word) (h : b ≠ a) : (m.write a v).read b = m.read b := by
  have hn : b.toNat ≠ a.toNat := fun e => h (BitVec.eq_of_toNat_eq e)
  unfold Memory.write Memory.read
  split
  · exact Memory.lookup_erase_ne m hn
  · rw [Memory.lookup_place_ne _ v hn, Memory.lookup_erase_ne m hn]

theorem Memory.read_write (m : Memory) (a b v : Word) : (m.write a v).read b = if b = a then v else m.read b := by
  split
  · next h => rw [h, Memory.read_write_self]
  · next h => exact Memory.read_write_ne m v h

theorem Memory.wfFrom_cons {lo k : Nat} {v : Word} {rest : Memory} :
    Memory.wfFrom lo ((k, v) :: rest) = true ↔
      lo ≤ k ∧ k < 65536 ∧ v ≠ Memory.unlisted ∧ Memory.wfFrom (k + 1) rest = true := by
  simp [Memory.wfFrom, and_assoc]

theorem Memory.wfFrom_mono {lo lo' : Nat} {m : Memory} (h : Memory.wfFrom lo m = true) (hl : lo' ≤ lo) :
    Memory.wfFrom lo' m = true := by
  cases m with
  | nil => rfl
  | cons c rest =>
    rw [Memory.wfFrom_cons] at h ⊢
    exact ⟨by omega, h.2⟩

theorem Memory.wfFrom_erase {lo : Nat} {m : Memory} (a : Nat) (h : Memory.wfFrom lo m = true) :
    Memory.wfFrom lo (Memory.erase m a) = true := by
  induction m generalizing lo with
  | nil => rfl
  | cons c rest ih =>
    obtain ⟨k, v⟩ := c
    rw [Memory.wfFrom_cons] at h
    unfold Memory.erase
    split
    · exact ih (Memory.wfFrom_mono h.2.2.2 (by omega))
    · exact Memory.wfFrom_cons.mpr ⟨h.1, h.2.1, h.2.2.1, ih h.2.2.2⟩

theorem Memory.wfFrom_place {lo a : Nat} {m : Memory} {v : Word} (h : Memory.wfFrom lo m = true) (hlo : lo ≤ a)
    (ha : a < 65536) (hv : v ≠ Memory.unlisted) (hm : ∀ w, (a, w) ∉ m) :
    Memory.wfFrom lo (Memory.place m a v) = true := by
  induction m generalizing lo with
  | nil => simp [Memory.place, Memory.wfFrom, hlo, ha, hv]
  | cons c rest ih =>
    obtain ⟨k, w⟩ := c
    have hk : k ≠ a := fun e => hm w (by simp [e])
    rw [Memory.wfFrom_cons] at h
    unfold Memory.place
    split
    · next hlt =>
      exact Memory.wfFrom_cons.mpr ⟨hlo, ha, hv, Memory.wfFrom_cons.mpr ⟨hlt, h.2.1, h.2.2.1, h.2.2.2⟩⟩
    · next hlt =>
      exact Memory.wfFrom_cons.mpr ⟨h.1, h.2.1, h.2.2.1,
        ih h.2.2.2 (by omega) fun w' hw => hm w' (List.mem_cons_of_mem _ hw)⟩

/-- A write keeps the canonical form. -/
theorem Memory.wf_write {m : Memory} (a v : Word) (h : m.wf = true) : (m.write a v).wf = true := by
  unfold Memory.write
  split
  · exact Memory.wfFrom_erase _ h
  · next hv =>
    exact Memory.wfFrom_place (Memory.wfFrom_erase _ h) (Nat.zero_le _) a.isLt hv (Memory.not_mem_erase m _)

theorem Memory.lookup_lt {lo a : Nat} {m : Memory} (h : Memory.wfFrom lo m = true) (ha : a < lo) :
    Memory.lookup m a = Memory.unlisted := by
  induction m generalizing lo with
  | nil => rfl
  | cons c rest ih =>
    obtain ⟨k, v⟩ := c
    rw [Memory.wfFrom_cons] at h
    simp only [Memory.lookup, if_neg (show k ≠ a by omega)]
    exact ih h.2.2.2 (by omega)

theorem Memory.ext_from {lo : Nat} {m m' : Memory} (h : Memory.wfFrom lo m = true) (h' : Memory.wfFrom lo m' = true)
    (he : ∀ a, a < 65536 → Memory.lookup m a = Memory.lookup m' a) : m = m' := by
  induction m generalizing lo m' with
  | nil =>
    cases m' with
    | nil => rfl
    | cons c rest =>
      obtain ⟨k, v⟩ := c
      rw [Memory.wfFrom_cons] at h'
      have := he k h'.2.1
      simp [Memory.lookup] at this
      exact absurd this.symm h'.2.2.1
  | cons c rest ih =>
    obtain ⟨k, v⟩ := c
    rw [Memory.wfFrom_cons] at h
    cases m' with
    | nil =>
      have := he k h.2.1
      simp [Memory.lookup] at this
      exact absurd this h.2.2.1
    | cons c' rest' =>
      obtain ⟨k', v'⟩ := c'
      rw [Memory.wfFrom_cons] at h'
      have hk : k = k' := by
        rcases Nat.lt_trichotomy k k' with hlt | heq | hgt
        · have := he k h.2.1
          simp only [Memory.lookup, if_true, if_neg (show k' ≠ k by omega),
            Memory.lookup_lt h'.2.2.2 (show k < k' + 1 by omega)] at this
          exact absurd this h.2.2.1
        · exact heq
        · have := he k' h'.2.1
          simp only [Memory.lookup, if_true, if_neg (show k ≠ k' by omega),
            Memory.lookup_lt h.2.2.2 (show k' < k + 1 by omega)] at this
          exact absurd this.symm h'.2.2.1
      subst hk
      have hv : v = v' := by simpa [Memory.lookup] using he k h.2.1
      subst hv
      congr 1
      refine ih h.2.2.2 h'.2.2.2 fun a ha => ?_
      by_cases hak : k = a
      · rw [Memory.lookup_lt h.2.2.2 (show a < k + 1 by omega), Memory.lookup_lt h'.2.2.2 (show a < k + 1 by omega)]
      · simpa [Memory.lookup, hak] using he a ha

/-- Two memories in canonical form that read the same everywhere are the same list. -/
theorem Memory.ext_of_wf {m m' : Memory} (h : m.wf = true) (h' : m'.wf = true)
    (he : ∀ a : Word, m.read a = m'.read a) : m = m' :=
  Memory.ext_from h h' fun a ha => by simpa [Memory.read, Nat.mod_eq_of_lt ha] using he (BitVec.ofNat 16 a)

end Sys2Proof.Machine
end

