-- ==== Sys2Proof/Laws/State.lean ====
section
/-! SUPPORT. The registers read back what was written, and one lemma per field per named update of the state, so that no proof
unfolds a record update. -/

namespace Sys2Proof.Machine

@[simp] theorem RegFile.get_set_self (f : RegFile) (i : Reg) (v : Word) : (f.set i v).get i = v := by
  cases i <;> rfl

theorem RegFile.get_set_ne (f : RegFile) {i j : Reg} (v : Word) (h : j ≠ i) : (f.set i v).get j = f.get j := by
  cases i <;> cases j <;> first | rfl | exact absurd rfl h

theorem RegFile.get_set (f : RegFile) (i j : Reg) (v : Word) : (f.set i v).get j = if j = i then v else f.get j := by
  split
  · next h => rw [h, RegFile.get_set_self]
  · next h => exact RegFile.get_set_ne f v h

/-- Register files that read the same are the same. -/
theorem RegFile.ext_get {f g : RegFile} (h : ∀ i, f.get i = g.get i) : f = g := by
  obtain ⟨a0, a1, a2, a3, a4, a5, a6, a7⟩ := f
  obtain ⟨b0, b1, b2, b3, b4, b5, b6, b7⟩ := g
  have h0 := h .r0; have h1 := h .r1; have h2 := h .r2; have h3 := h .r3
  have h4 := h .r4; have h5 := h .r5; have h6 := h .r6; have h7 := h .r7
  simp only [RegFile.get] at *
  subst_vars
  rfl

@[simp] theorem State.reg_setReg_self (s : State) (i : Reg) (v : Word) : (s.setReg i v).reg i = v :=
  RegFile.get_set_self s.regs i v

@[simp] theorem State.setReg_regs (s : State) (i : Reg) (v : Word) : (s.setReg i v).regs = s.regs.set i v := rfl
@[simp] theorem State.setReg_pc (s : State) (i : Reg) (v : Word) : (s.setReg i v).pc = s.pc := rfl
@[simp] theorem State.setReg_cond (s : State) (i : Reg) (v : Word) : (s.setReg i v).cond = s.cond := rfl
@[simp] theorem State.setReg_mem (s : State) (i : Reg) (v : Word) : (s.setReg i v).mem = s.mem := rfl
@[simp] theorem State.setReg_run (s : State) (i : Reg) (v : Word) : (s.setReg i v).run = s.run := rfl
@[simp] theorem State.setReg_fault (s : State) (i : Reg) (v : Word) : (s.setReg i v).fault = s.fault := rfl
@[simp] theorem State.setReg_consoleInput (s : State) (i : Reg) (v : Word) : (s.setReg i v).consoleInput = s.consoleInput := rfl
@[simp] theorem State.setReg_inputTail (s : State) (i : Reg) (v : Word) : (s.setReg i v).inputTail = s.inputTail := rfl
@[simp] theorem State.setReg_inPos (s : State) (i : Reg) (v : Word) : (s.setReg i v).inPos = s.inPos := rfl
@[simp] theorem State.setReg_output (s : State) (i : Reg) (v : Word) : (s.setReg i v).output = s.output := rfl
@[simp] theorem State.setReg_flushed (s : State) (i : Reg) (v : Word) : (s.setReg i v).flushed = s.flushed := rfl
@[simp] theorem State.setReg_wait (s : State) (i : Reg) (v : Word) : (s.setReg i v).wait = s.wait := rfl
@[simp] theorem State.setReg_pollCount (s : State) (i : Reg) (v : Word) : (s.setReg i v).pollCount = s.pollCount := rfl

@[simp] theorem State.setPc_regs (s : State) (t : Word) : (s.setPc t).regs = s.regs := rfl
@[simp] theorem State.setPc_pc (s : State) (t : Word) : (s.setPc t).pc = t := rfl
@[simp] theorem State.setPc_cond (s : State) (t : Word) : (s.setPc t).cond = s.cond := rfl
@[simp] theorem State.setPc_mem (s : State) (t : Word) : (s.setPc t).mem = s.mem := rfl
@[simp] theorem State.setPc_run (s : State) (t : Word) : (s.setPc t).run = s.run := rfl
@[simp] theorem State.setPc_fault (s : State) (t : Word) : (s.setPc t).fault = s.fault := rfl
@[simp] theorem State.setPc_consoleInput (s : State) (t : Word) : (s.setPc t).consoleInput = s.consoleInput := rfl
@[simp] theorem State.setPc_inputTail (s : State) (t : Word) : (s.setPc t).inputTail = s.inputTail := rfl
@[simp] theorem State.setPc_inPos (s : State) (t : Word) : (s.setPc t).inPos = s.inPos := rfl
@[simp] theorem State.setPc_output (s : State) (t : Word) : (s.setPc t).output = s.output := rfl
@[simp] theorem State.setPc_flushed (s : State) (t : Word) : (s.setPc t).flushed = s.flushed := rfl
@[simp] theorem State.setPc_wait (s : State) (t : Word) : (s.setPc t).wait = s.wait := rfl
@[simp] theorem State.setPc_pollCount (s : State) (t : Word) : (s.setPc t).pollCount = s.pollCount := rfl

@[simp] theorem setcc_regs (i : Reg) (s : State) : (setcc i s).regs = s.regs := rfl
@[simp] theorem setcc_pc (i : Reg) (s : State) : (setcc i s).pc = s.pc := rfl
@[simp] theorem setcc_cond (i : Reg) (s : State) : (setcc i s).cond = flagOf (s.reg i) := rfl
@[simp] theorem setcc_mem (i : Reg) (s : State) : (setcc i s).mem = s.mem := rfl
@[simp] theorem setcc_run (i : Reg) (s : State) : (setcc i s).run = s.run := rfl
@[simp] theorem setcc_fault (i : Reg) (s : State) : (setcc i s).fault = s.fault := rfl
@[simp] theorem setcc_consoleInput (i : Reg) (s : State) : (setcc i s).consoleInput = s.consoleInput := rfl
@[simp] theorem setcc_inputTail (i : Reg) (s : State) : (setcc i s).inputTail = s.inputTail := rfl
@[simp] theorem setcc_inPos (i : Reg) (s : State) : (setcc i s).inPos = s.inPos := rfl
@[simp] theorem setcc_output (i : Reg) (s : State) : (setcc i s).output = s.output := rfl
@[simp] theorem setcc_flushed (i : Reg) (s : State) : (setcc i s).flushed = s.flushed := rfl
@[simp] theorem setcc_wait (i : Reg) (s : State) : (setcc i s).wait = s.wait := rfl
@[simp] theorem setcc_pollCount (i : Reg) (s : State) : (setcc i s).pollCount = s.pollCount := rfl

@[simp] theorem consolePut_regs (c : Byte) (s : State) : (consolePut c s).regs = s.regs := rfl
@[simp] theorem consolePut_pc (c : Byte) (s : State) : (consolePut c s).pc = s.pc := rfl
@[simp] theorem consolePut_cond (c : Byte) (s : State) : (consolePut c s).cond = s.cond := rfl
@[simp] theorem consolePut_mem (c : Byte) (s : State) : (consolePut c s).mem = s.mem := rfl
@[simp] theorem consolePut_run (c : Byte) (s : State) : (consolePut c s).run = s.run := rfl
@[simp] theorem consolePut_fault (c : Byte) (s : State) : (consolePut c s).fault = s.fault := rfl
@[simp] theorem consolePut_consoleInput (c : Byte) (s : State) : (consolePut c s).consoleInput = s.consoleInput := rfl
@[simp] theorem consolePut_inputTail (c : Byte) (s : State) : (consolePut c s).inputTail = s.inputTail := rfl
@[simp] theorem consolePut_inPos (c : Byte) (s : State) : (consolePut c s).inPos = s.inPos := rfl
@[simp] theorem consolePut_output (c : Byte) (s : State) : (consolePut c s).output = s.output ++ [c] := rfl
@[simp] theorem consolePut_flushed (c : Byte) (s : State) : (consolePut c s).flushed = s.flushed := rfl
@[simp] theorem consolePut_wait (c : Byte) (s : State) : (consolePut c s).wait = s.wait := rfl
@[simp] theorem consolePut_pollCount (c : Byte) (s : State) : (consolePut c s).pollCount = s.pollCount := rfl

@[simp] theorem consolePutAll_regs (cs : List Byte) (s : State) : (consolePutAll cs s).regs = s.regs := rfl
@[simp] theorem consolePutAll_pc (cs : List Byte) (s : State) : (consolePutAll cs s).pc = s.pc := rfl
@[simp] theorem consolePutAll_cond (cs : List Byte) (s : State) : (consolePutAll cs s).cond = s.cond := rfl
@[simp] theorem consolePutAll_mem (cs : List Byte) (s : State) : (consolePutAll cs s).mem = s.mem := rfl
@[simp] theorem consolePutAll_run (cs : List Byte) (s : State) : (consolePutAll cs s).run = s.run := rfl
@[simp] theorem consolePutAll_fault (cs : List Byte) (s : State) : (consolePutAll cs s).fault = s.fault := rfl
@[simp] theorem consolePutAll_consoleInput (cs : List Byte) (s : State) : (consolePutAll cs s).consoleInput = s.consoleInput := rfl
@[simp] theorem consolePutAll_inputTail (cs : List Byte) (s : State) : (consolePutAll cs s).inputTail = s.inputTail := rfl
@[simp] theorem consolePutAll_inPos (cs : List Byte) (s : State) : (consolePutAll cs s).inPos = s.inPos := rfl
@[simp] theorem consolePutAll_output (cs : List Byte) (s : State) : (consolePutAll cs s).output = s.output ++ cs := rfl
@[simp] theorem consolePutAll_flushed (cs : List Byte) (s : State) : (consolePutAll cs s).flushed = s.flushed := rfl
@[simp] theorem consolePutAll_wait (cs : List Byte) (s : State) : (consolePutAll cs s).wait = s.wait := rfl
@[simp] theorem consolePutAll_pollCount (cs : List Byte) (s : State) : (consolePutAll cs s).pollCount = s.pollCount := rfl

@[simp] theorem consoleFlush_regs (s : State) : (consoleFlush s).regs = s.regs := rfl
@[simp] theorem consoleFlush_pc (s : State) : (consoleFlush s).pc = s.pc := rfl
@[simp] theorem consoleFlush_cond (s : State) : (consoleFlush s).cond = s.cond := rfl
@[simp] theorem consoleFlush_mem (s : State) : (consoleFlush s).mem = s.mem := rfl
@[simp] theorem consoleFlush_run (s : State) : (consoleFlush s).run = s.run := rfl
@[simp] theorem consoleFlush_fault (s : State) : (consoleFlush s).fault = s.fault := rfl
@[simp] theorem consoleFlush_consoleInput (s : State) : (consoleFlush s).consoleInput = s.consoleInput := rfl
@[simp] theorem consoleFlush_inputTail (s : State) : (consoleFlush s).inputTail = s.inputTail := rfl
@[simp] theorem consoleFlush_inPos (s : State) : (consoleFlush s).inPos = s.inPos := rfl
@[simp] theorem consoleFlush_output (s : State) : (consoleFlush s).output = s.output := rfl
@[simp] theorem consoleFlush_flushed (s : State) : (consoleFlush s).flushed = s.output.length := rfl
@[simp] theorem consoleFlush_wait (s : State) : (consoleFlush s).wait = s.wait := rfl
@[simp] theorem consoleFlush_pollCount (s : State) : (consoleFlush s).pollCount = s.pollCount := rfl

@[simp] theorem memWrite_regs (a v : Word) (s : State) : (memWrite a v s).regs = s.regs := rfl
@[simp] theorem memWrite_pc (a v : Word) (s : State) : (memWrite a v s).pc = s.pc := rfl
@[simp] theorem memWrite_cond (a v : Word) (s : State) : (memWrite a v s).cond = s.cond := rfl
@[simp] theorem memWrite_mem (a v : Word) (s : State) : (memWrite a v s).mem = s.mem.write a v := rfl
@[simp] theorem memWrite_run (a v : Word) (s : State) : (memWrite a v s).run = s.run := rfl
@[simp] theorem memWrite_fault (a v : Word) (s : State) : (memWrite a v s).fault = s.fault := rfl
@[simp] theorem memWrite_consoleInput (a v : Word) (s : State) : (memWrite a v s).consoleInput = s.consoleInput := rfl
@[simp] theorem memWrite_inputTail (a v : Word) (s : State) : (memWrite a v s).inputTail = s.inputTail := rfl
@[simp] theorem memWrite_inPos (a v : Word) (s : State) : (memWrite a v s).inPos = s.inPos := rfl
@[simp] theorem memWrite_output (a v : Word) (s : State) : (memWrite a v s).output = s.output := rfl
@[simp] theorem memWrite_flushed (a v : Word) (s : State) : (memWrite a v s).flushed = s.flushed := rfl
@[simp] theorem memWrite_wait (a v : Word) (s : State) : (memWrite a v s).wait = s.wait := rfl
@[simp] theorem memWrite_pollCount (a v : Word) (s : State) : (memWrite a v s).pollCount = s.pollCount := rfl

@[simp] theorem raiseFatal_regs (c : FatalCause) (s : State) : (raiseFatal c s).regs = s.regs := rfl
@[simp] theorem raiseFatal_pc (c : FatalCause) (s : State) : (raiseFatal c s).pc = s.pc := rfl
@[simp] theorem raiseFatal_cond (c : FatalCause) (s : State) : (raiseFatal c s).cond = s.cond := rfl
@[simp] theorem raiseFatal_mem (c : FatalCause) (s : State) : (raiseFatal c s).mem = s.mem := rfl
@[simp] theorem raiseFatal_run (c : FatalCause) (s : State) : (raiseFatal c s).run = .halted := rfl
@[simp] theorem raiseFatal_fault (c : FatalCause) (s : State) : (raiseFatal c s).fault = some c := rfl
@[simp] theorem raiseFatal_consoleInput (c : FatalCause) (s : State) : (raiseFatal c s).consoleInput = s.consoleInput := rfl
@[simp] theorem raiseFatal_inputTail (c : FatalCause) (s : State) : (raiseFatal c s).inputTail = s.inputTail := rfl
@[simp] theorem raiseFatal_inPos (c : FatalCause) (s : State) : (raiseFatal c s).inPos = s.inPos := rfl
@[simp] theorem raiseFatal_output (c : FatalCause) (s : State) : (raiseFatal c s).output = s.output := rfl
@[simp] theorem raiseFatal_flushed (c : FatalCause) (s : State) : (raiseFatal c s).flushed = s.flushed := rfl
@[simp] theorem raiseFatal_wait (c : FatalCause) (s : State) : (raiseFatal c s).wait = s.wait := rfl
@[simp] theorem raiseFatal_pollCount (c : FatalCause) (s : State) : (raiseFatal c s).pollCount = s.pollCount := rfl

@[simp] theorem supplyInput_regs (cs : List Byte) (s : State) : (supplyInput cs s).regs = s.regs := rfl
@[simp] theorem supplyInput_pc (cs : List Byte) (s : State) : (supplyInput cs s).pc = s.pc := rfl
@[simp] theorem supplyInput_cond (cs : List Byte) (s : State) : (supplyInput cs s).cond = s.cond := rfl
@[simp] theorem supplyInput_mem (cs : List Byte) (s : State) : (supplyInput cs s).mem = s.mem := rfl
@[simp] theorem supplyInput_run (cs : List Byte) (s : State) : (supplyInput cs s).run = s.run := rfl
@[simp] theorem supplyInput_fault (cs : List Byte) (s : State) : (supplyInput cs s).fault = s.fault := rfl
@[simp] theorem supplyInput_consoleInput (cs : List Byte) (s : State) : (supplyInput cs s).consoleInput = s.consoleInput ++ cs := rfl
@[simp] theorem supplyInput_inputTail (cs : List Byte) (s : State) : (supplyInput cs s).inputTail = s.inputTail := rfl
@[simp] theorem supplyInput_inPos (cs : List Byte) (s : State) : (supplyInput cs s).inPos = s.inPos := rfl
@[simp] theorem supplyInput_output (cs : List Byte) (s : State) : (supplyInput cs s).output = s.output := rfl
@[simp] theorem supplyInput_flushed (cs : List Byte) (s : State) : (supplyInput cs s).flushed = s.flushed := rfl
@[simp] theorem supplyInput_wait (cs : List Byte) (s : State) : (supplyInput cs s).wait = s.wait := rfl
@[simp] theorem supplyInput_pollCount (cs : List Byte) (s : State) : (supplyInput cs s).pollCount = s.pollCount := rfl

@[simp] theorem writeDest_regs (dr : Reg) (v : Word) (s : State) : (writeDest dr v s).regs = s.regs.set dr v := rfl
@[simp] theorem writeDest_pc (dr : Reg) (v : Word) (s : State) : (writeDest dr v s).pc = s.pc := rfl
@[simp] theorem writeDest_cond (dr : Reg) (v : Word) (s : State) : (writeDest dr v s).cond = flagOf v := by
  simp [writeDest]
@[simp] theorem writeDest_mem (dr : Reg) (v : Word) (s : State) : (writeDest dr v s).mem = s.mem := rfl
@[simp] theorem writeDest_run (dr : Reg) (v : Word) (s : State) : (writeDest dr v s).run = s.run := rfl
@[simp] theorem writeDest_fault (dr : Reg) (v : Word) (s : State) : (writeDest dr v s).fault = s.fault := rfl
@[simp] theorem writeDest_consoleInput (dr : Reg) (v : Word) (s : State) : (writeDest dr v s).consoleInput = s.consoleInput := rfl
@[simp] theorem writeDest_inputTail (dr : Reg) (v : Word) (s : State) : (writeDest dr v s).inputTail = s.inputTail := rfl
@[simp] theorem writeDest_inPos (dr : Reg) (v : Word) (s : State) : (writeDest dr v s).inPos = s.inPos := rfl
@[simp] theorem writeDest_output (dr : Reg) (v : Word) (s : State) : (writeDest dr v s).output = s.output := rfl
@[simp] theorem writeDest_flushed (dr : Reg) (v : Word) (s : State) : (writeDest dr v s).flushed = s.flushed := rfl
@[simp] theorem writeDest_wait (dr : Reg) (v : Word) (s : State) : (writeDest dr v s).wait = s.wait := rfl
@[simp] theorem writeDest_pollCount (dr : Reg) (v : Word) (s : State) : (writeDest dr v s).pollCount = s.pollCount := rfl

end Sys2Proof.Machine
end

