-- ==== Sys2Proof/Laws/Ops.lean ====
section
/-! SUPPORT. One lemma per shared operation that says everything it can do; proofs cite these and do not unfold the
operations. -/

namespace Sys2Proof.Machine

/-- The two keyboard registers are two cells (R6). -/
theorem kbsr_ne_kbdr : Config.kbsrAddr ≠ Config.kbdrAddr := by decide

/-- A listed character is what it is listed as. -/
theorem inputAt_listed {s : State} {n : Nat} (h : n < s.consoleInput.length) : s.inputAt n = some s.consoleInput[n] := by
  simp [State.inputAt, h]

/-- On an input that has ended there are the listed characters only. -/
theorem inputAt_ended {s : State} (n : Nat) (h : s.inputTail = .ended) : s.inputAt n = s.consoleInput[n]? := by
  unfold State.inputAt
  cases s.consoleInput[n]? <;> simp [h]

/-- An endless input always has a next character. -/
theorem inputAt_endless {s : State} {n k : Nat} (h : s.inputTail = .endless k) (hn : s.consoleInput.length ≤ n) :
    s.inputAt n = some (Config.endlessInput k n) := by
  simp [State.inputAt, hn, h]

/-- On an input that has ended the next character is a listed one. -/
theorem nextChar_lt {s : State} {c : Byte} (h : nextChar s = some c) (he : s.inputTail = .ended) :
    s.inPos < s.consoleInput.length := by
  rw [nextChar, inputAt_ended _ he] at h
  exact (List.getElem?_eq_some_iff.mp h).1

/-- Everything `ConsolePoll` can do: it finds the next character and consumes it, or it finds none and consumes nothing. -/
theorem consolePoll_cases (s : State) :
    (∃ c, nextChar s = some c ∧ Config.pollAvailable s.pollCount = true ∧
      consolePoll s = (some c, { s with pollCount := s.pollCount + 1, inPos := s.inPos + 1 })) ∨
    ((nextChar s = none ∨ Config.pollAvailable s.pollCount = false) ∧
      consolePoll s = (none, { s with pollCount := s.pollCount + 1 })) := by
  unfold consolePoll
  cases hc : nextChar s with
  | none => exact .inr ⟨.inl rfl, rfl⟩
  | some c =>
    cases ha : Config.pollAvailable s.pollCount with
    | true => exact .inl ⟨c, rfl, rfl, rfl⟩
    | false => exact .inr ⟨.inr rfl, rfl⟩

/-- Everything `KeyboardPoll` can do. -/
theorem keyboardPoll_cases (s : State) :
    (∃ c, nextChar s = some c ∧ Config.pollAvailable s.pollCount = true ∧
      keyboardPoll s =
        { s with
          pollCount := s.pollCount + 1
          inPos := s.inPos + 1
          mem := (s.mem.write Config.kbsrAddr (s.mem.read Config.kbsrAddr ||| 0x8000)).write Config.kbdrAddr
            (zext8 c) }) ∨
    ((nextChar s = none ∨ Config.pollAvailable s.pollCount = false) ∧
      keyboardPoll s =
        { s with
          pollCount := s.pollCount + 1
          mem := s.mem.write Config.kbsrAddr (s.mem.read Config.kbsrAddr &&& 0x7FFF) }) := by
  unfold keyboardPoll
  rcases consolePoll_cases s with ⟨c, h1, h2, h3⟩ | ⟨h1, h2⟩
  · exact .inl ⟨c, h1, h2, by rw [h3]⟩
  · exact .inr ⟨h1, by rw [h2]⟩

/-- A read elsewhere than at KBSR is plain. -/
theorem memRead_of_ne {a : Word} (s : State) (h : a ≠ Config.kbsrAddr) : memRead a s = (s.mem.read a, s) := if_neg h

/-- A read of KBSR polls and returns the status word after the poll. -/
theorem memRead_kbsr (s : State) :
    memRead Config.kbsrAddr s = ((keyboardPoll s).mem.read Config.kbsrAddr, keyboardPoll s) := if_pos rfl

/-- The word read is the cell's content after the read. -/
theorem memRead_fst (a : Word) (s : State) : (memRead a s).1 = (memRead a s).2.mem.read a := by
  by_cases h : a = Config.kbsrAddr
  · rw [h, memRead_kbsr]
  · rw [memRead_of_ne s h]

/-- What a read can change, as one form: the memory, the input position and the poll counter; memory by a
poll's writes to the two keyboard cells only, and the position by at most one, within the input. -/
theorem memRead_snd (a : Word) (s : State) :
    ∃ (m : Memory) (pos n : Nat),
      (memRead a s).2 = { s with mem := m, inPos := pos, pollCount := n } ∧
      (∀ b, b ≠ Config.kbsrAddr → b ≠ Config.kbdrAddr → m.read b = s.mem.read b) ∧
      (s.mem.wf = true → m.wf = true) ∧
      s.inPos ≤ pos ∧ (s.inputTail = .ended → s.inPos ≤ s.consoleInput.length → pos ≤ s.consoleInput.length) := by
  by_cases h : a = Config.kbsrAddr
  · rw [h, memRead_kbsr]
    rcases keyboardPoll_cases s with ⟨c, h1, -, h3⟩ | ⟨-, h2⟩
    · refine ⟨_, _, _, h3, fun b hb hb' => ?_, fun hw => ?_, Nat.le_succ _, fun he _ => nextChar_lt h1 he⟩
      · rw [Memory.read_write_ne _ _ hb', Memory.read_write_ne _ _ hb]
      · exact Memory.wf_write _ _ (Memory.wf_write _ _ hw)
    · refine ⟨_, s.inPos, _, h2, fun b hb _ => ?_, fun hw => ?_, Nat.le_refl _, fun _ h => h⟩
      · rw [Memory.read_write_ne _ _ hb]
      · exact Memory.wf_write _ _ hw
  · exact ⟨s.mem, s.inPos, s.pollCount, by rw [memRead_of_ne s h], fun _ _ _ => rfl, id, Nat.le_refl _, fun _ h => h⟩

section Frame

variable (a : Word) (s : State)

@[simp] theorem memRead_regs : (memRead a s).2.regs = s.regs := by
  obtain ⟨m, pos, n, h, -⟩ := memRead_snd a s; rw [h]

@[simp] theorem memRead_pc : (memRead a s).2.pc = s.pc := by
  obtain ⟨m, pos, n, h, -⟩ := memRead_snd a s; rw [h]

@[simp] theorem memRead_cond : (memRead a s).2.cond = s.cond := by
  obtain ⟨m, pos, n, h, -⟩ := memRead_snd a s; rw [h]

@[simp] theorem memRead_run : (memRead a s).2.run = s.run := by
  obtain ⟨m, pos, n, h, -⟩ := memRead_snd a s; rw [h]

@[simp] theorem memRead_fault : (memRead a s).2.fault = s.fault := by
  obtain ⟨m, pos, n, h, -⟩ := memRead_snd a s; rw [h]

@[simp] theorem memRead_consoleInput : (memRead a s).2.consoleInput = s.consoleInput := by
  obtain ⟨m, pos, n, h, -⟩ := memRead_snd a s; rw [h]

@[simp] theorem memRead_inputTail : (memRead a s).2.inputTail = s.inputTail := by
  obtain ⟨m, pos, n, h, -⟩ := memRead_snd a s; rw [h]

@[simp] theorem memRead_output : (memRead a s).2.output = s.output := by
  obtain ⟨m, pos, n, h, -⟩ := memRead_snd a s; rw [h]

@[simp] theorem memRead_flushed : (memRead a s).2.flushed = s.flushed := by
  obtain ⟨m, pos, n, h, -⟩ := memRead_snd a s; rw [h]

@[simp] theorem memRead_wait : (memRead a s).2.wait = s.wait := by
  obtain ⟨m, pos, n, h, -⟩ := memRead_snd a s; rw [h]

end Frame

/-- Taking a fatal decode error, whole (R252). -/
theorem raiseFatal_eq (cause : FatalCause) (s : State) :
    raiseFatal cause s = { s with run := .halted, fault := some cause } := rfl

/-- The fetch from anywhere but KBSR: the word at `pc`, and nothing but `pc` changes. -/
theorem fetch_of_ne {s : State} (h : s.pc ≠ Config.kbsrAddr) :
    fetch s = (s.mem.read s.pc, { s with pc := s.pc + 1 }) := by
  simp [fetch, memRead_of_ne s h]

/-- What can follow a blocking read: the character completes the routine, or the routine waits. -/
theorem consoleGet_cases (which : BlockedRead) (s : State) :
    (∃ c, nextChar s = some c ∧ consoleGet which s = takeChar which c s) ∨
    (nextChar s = none ∧ consoleGet which s = { s with wait := some which }) := by
  unfold consoleGet
  cases hc : nextChar s with
  | none => exact .inr ⟨rfl, rfl⟩
  | some c => exact .inl ⟨c, rfl, rfl⟩

/-- What a string routine's loop can change, as one form: what its reads change, and characters put at the
end of the output. -/
def StringEffect (s t : State) : Prop :=
  ∃ (m : Memory) (pos n : Nat) (cs : List Byte),
    t = { s with mem := m, inPos := pos, pollCount := n, output := s.output ++ cs } ∧
    (∀ b, b ≠ Config.kbsrAddr → b ≠ Config.kbdrAddr → m.read b = s.mem.read b) ∧
    (s.mem.wf = true → m.wf = true) ∧
    s.inPos ≤ pos ∧ (s.inputTail = .ended → s.inPos ≤ s.consoleInput.length → pos ≤ s.consoleInput.length)

theorem StringEffect.refl (s : State) : StringEffect s s :=
  ⟨s.mem, s.inPos, s.pollCount, [], by simp, fun _ _ _ => rfl, id, Nat.le_refl _, fun _ h => h⟩

theorem StringEffect.of_memRead (a : Word) (s : State) : StringEffect s (memRead a s).2 := by
  obtain ⟨m, pos, n, h, h1, h2, h3, h4⟩ := memRead_snd a s
  exact ⟨m, pos, n, [], by rw [h]; simp, h1, h2, h3, h4⟩

theorem StringEffect.put (c : Byte) {s t : State} (h : StringEffect s t) : StringEffect s (consolePut c t) := by
  obtain ⟨m, pos, n, cs, rfl, h1, h2, h3, h4⟩ := h
  exact ⟨m, pos, n, cs ++ [c], by simp [consolePut], h1, h2, h3, h4⟩

theorem StringEffect.trans {s t u : State} (h : StringEffect s t) (h' : StringEffect t u) : StringEffect s u := by
  obtain ⟨m, pos, n, cs, rfl, h1, h2, h3, h4⟩ := h
  obtain ⟨m', pos', n', cs', rfl, h1', h2', h3', h4'⟩ := h'
  exact ⟨m', pos', n', cs ++ cs', by simp, fun b hb hb' => (h1' b hb hb').trans (h1 b hb hb'),
    fun hw => h2' (h2 hw), h3.trans h3', fun he hp => h4' he (h4 he hp)⟩

/-- More turns do not change where a loop ends. -/
theorem runFor_mono {word : Word → State → Bool × State} {n m : Nat} {a : Word} {s t : State} (hnm : n ≤ m)
    (h : runFor word n a s = some t) : runFor word m a s = some t := by
  induction n generalizing m a s with
  | zero => exact absurd h (by simp [runFor])
  | succ n ih =>
    obtain ⟨m, rfl⟩ : ∃ k, m = k + 1 := ⟨m - 1, by omega⟩
    simp only [runFor] at h ⊢
    split at h
    · rw [if_pos ‹_›, h]
    · rw [if_neg ‹_›, ih (by omega) h]

/-- A string routine's loop ends in a state exactly when some number of turns ends it there. -/
theorem runToEnd_eq_some {word : Word → State → Bool × State} {a : Word} {s t : State} :
    runToEnd word a s = some t ↔ ∃ n, runFor word n a s = some t := by
  constructor
  · refine runToEnd.partial_correctness word (fun a s t => ∃ n, runFor word n a s = some t) ?_ a s t
    intro loop ih a s t h
    dsimp only at h
    split at h
    · next h1 => exact ⟨1, by simp only [runFor]; rw [if_pos h1, h]⟩
    · next h1 =>
      obtain ⟨n, hn⟩ := ih _ _ _ h
      exact ⟨n + 1, by simp only [runFor]; rw [if_neg h1, hn]⟩
  · rintro ⟨n, h⟩
    induction n generalizing a s with
    | zero => exact absurd h (by simp [runFor])
    | succ n ih =>
      rw [runToEnd]
      simp only [runFor] at h
      split at h
      · rw [if_pos ‹_›, h]
      · rw [if_neg ‹_›, ih h]

/-- The form that evaluates is the loop. -/
theorem runString_eq (word : Word → State → Bool × State) (a : Word) (s : State) :
    runString word a s = runToEnd word a s := by
  unfold runString
  split
  · next h => exact (runToEnd_eq_some.mpr ⟨_, h⟩).symm
  · rfl

/-- What holds of every turn, from the state at its start to the state after it, and is kept by adding turns, holds
of the whole loop. -/
theorem runToEnd_induct {word : Word → State → Bool × State} {P : State → State → Prop}
    (turn : ∀ a s, P s (word a s).2) (trans : ∀ s t u, P s t → P t u → P s u)
    {a : Word} {s t : State} (h : runToEnd word a s = some t) : P s t := by
  replace h := runToEnd_eq_some.mp h
  obtain ⟨n, h⟩ := h
  induction n generalizing a s with
  | zero => exact absurd h (by simp [runFor])
  | succ n ih =>
    simp only [runFor] at h
    split at h
    · cases h; exact turn a s
    · exact trans _ _ _ (turn a s) (ih h)

/-- What a turn of PUTS can change. -/
theorem putsWord_effect (a : Word) (s : State) : StringEffect s (putsWord a s).2 := by
  simp only [putsWord]
  split
  · exact .of_memRead a s
  · exact (StringEffect.of_memRead a s).put _

/-- What a turn of PUTSP can change. -/
theorem putspWord_effect (a : Word) (s : State) : StringEffect s (putspWord a s).2 := by
  simp only [putspWord]
  split
  · exact .of_memRead a s
  · split
    · exact (StringEffect.of_memRead a s).put _
    · exact ((StringEffect.of_memRead a s).put _).put _

/-- What PUTS can do: it answers the end of its loop, flushed, or its loop never ends. -/
theorem trapPuts_cases (s : State) :
    (∃ u, runToEnd putsWord (s.reg .r0) s = some u ∧ StringEffect s u ∧ trapPuts s = .next (consoleFlush u)) ∨
    (runToEnd putsWord (s.reg .r0) s = none ∧ trapPuts s = .fault .stringUnterminated) := by
  unfold trapPuts
  rw [runString_eq]
  cases h : runToEnd putsWord (s.reg .r0) s with
  | none => exact .inr ⟨rfl, rfl⟩
  | some u => exact .inl ⟨u, rfl, runToEnd_induct putsWord_effect (fun _ _ _ => .trans) h, rfl⟩

/-- What PUTSP can do: it answers the end of its loop, flushed, or its loop never ends. -/
theorem trapPutsp_cases (s : State) :
    (∃ u, runToEnd putspWord (s.reg .r0) s = some u ∧ StringEffect s u ∧ trapPutsp s = .next (consoleFlush u)) ∨
    (runToEnd putspWord (s.reg .r0) s = none ∧ trapPutsp s = .fault .stringUnterminated) := by
  unfold trapPutsp
  rw [runString_eq]
  cases h : runToEnd putspWord (s.reg .r0) s with
  | none => exact .inr ⟨rfl, rfl⟩
  | some u => exact .inl ⟨u, rfl, runToEnd_induct putspWord_effect (fun _ _ _ => .trans) h, rfl⟩

/-- The Trap Dispatcher, vector by vector (R190). -/
theorem trapDispatch_cases (v : Byte) (s : State) :
    (v = 0x20 ∧ trapDispatch v s = trapGetc s) ∨ (v = 0x21 ∧ trapDispatch v s = trapOut s) ∨
    (v = 0x22 ∧ trapDispatch v s = trapPuts s) ∨ (v = 0x23 ∧ trapDispatch v s = trapIn s) ∨
    (v = 0x24 ∧ trapDispatch v s = trapPutsp s) ∨ (v = 0x25 ∧ trapDispatch v s = trapHalt s) ∨
    (knownVector v = false ∧ trapDispatch v s = .next (raiseFatal (.unknownTrapVector v) s)) := by
  have hv : ∀ n : Nat, n < 256 → v.toNat = n → v = BitVec.ofNat 8 n := fun n hn h =>
    BitVec.eq_of_toNat_eq (by simp [h, Nat.mod_eq_of_lt hn])
  unfold trapDispatch
  split
  · next h => exact .inl ⟨hv _ (by decide) h, rfl⟩
  · next h => exact .inr (.inl ⟨hv _ (by decide) h, rfl⟩)
  · next h => exact .inr (.inr (.inl ⟨hv _ (by decide) h, rfl⟩))
  · next h => exact .inr (.inr (.inr (.inl ⟨hv _ (by decide) h, rfl⟩)))
  · next h => exact .inr (.inr (.inr (.inr (.inl ⟨hv _ (by decide) h, rfl⟩))))
  · next h => exact .inr (.inr (.inr (.inr (.inr (.inl ⟨hv _ (by decide) h, rfl⟩)))))
  · next h0 h1 h2 h3 h4 h5 =>
    refine .inr (.inr (.inr (.inr (.inr (.inr ⟨?_, rfl⟩)))))
    have hn : ∀ n : Nat, v.toNat ≠ n → (v == BitVec.ofNat 8 n) = false ∨ 256 ≤ n := fun n h => by
      by_cases hlt : n < 256
      · left
        simp only [beq_eq_false_iff_ne]
        exact fun e => h (by simp [e, Nat.mod_eq_of_lt hlt])
      · right; omega
    have k0 := hn 0x20 h0; have k1 := hn 0x21 h1; have k2 := hn 0x22 h2
    have k3 := hn 0x23 h3; have k4 := hn 0x24 h4; have k5 := hn 0x25 h5
    simp_all [knownVector]

end Sys2Proof.Machine
end

