-- ==== Sys2Proof/Laws/Step.lean ====
section
/-! SUPPORT. What a step and a meaning can do, said once. -/

namespace Sys2Proof.Machine

/-- A step that answers a next state either runs the fetched instruction or completes a waiting read. -/
theorem step_cases {s t : State} (h : step s = .next t) :
    s.run = .running ∧
      ((s.wait = none ∧ exec (decode (fetch s).1) (fetch s).2 = .next t) ∨
       (∃ which c, s.wait = some which ∧ nextChar s = some c ∧ t = takeChar which c s)) := by
  unfold step at h
  cases hr : s.run with
  | halted => rw [hr] at h; exact absurd h (by simp)
  | running =>
    rw [hr] at h
    cases hw : s.wait with
    | none => rw [hw] at h; exact ⟨rfl, .inl ⟨rfl, h⟩⟩
    | some which =>
      rw [hw] at h
      simp only [resumeRead] at h
      cases hc : nextChar s with
      | none => rw [hc] at h; exact absurd h (by simp)
      | some c => rw [hc] at h; cases h; exact ⟨rfl, .inr ⟨which, c, rfl, rfl, rfl⟩⟩

/-- A running machine that waits for nothing fetches, decodes and executes. -/
theorem step_running {s : State} (hr : s.run = .running) (hw : s.wait = none) :
    step s = exec (decode (fetch s).1) (fetch s).2 := by
  simp [step, hr, hw]

theorem step_halted {s : State} (hr : s.run = .halted) : step s = .fault .halted := by simp [step, hr]

theorem step_waiting {s : State} {which : BlockedRead} (hr : s.run = .running) (hw : s.wait = some which) :
    step s = resumeRead which s := by
  simp [step, hr, hw]

end Sys2Proof.Machine
end

