-- ==== Sys2Proof/Laws/Exec.lean ====
section
/-! SUPPORT. The bridges between the operations and the spec's words (sums as numbers, flags by sign), and
runs. -/

namespace Sys2Proof.Machine

/-- A 16-bit sum as the number mod 2^16. -/
theorem ofNat_toNat_add (a b : Word) : BitVec.ofNat 16 (a.toNat + b.toNat) = a + b := by
  apply BitVec.eq_of_toNat_eq; simp

/-- The flag by the top bit is the flag by the unsigned value (R120). -/
theorem flagOf_eq_signCond (v : Word) : flagOf v = signCond v := by
  have h1 : v = 0 ↔ v.toNat = 0 := ⟨fun h => by rw [h]; rfl, fun h => BitVec.eq_of_toNat_eq (by simpa using h)⟩
  have h2 : v.getLsbD 15 = decide (0x8000 ≤ v.toNat) := by
    have := BitVec.msb_eq_decide v
    simpa [BitVec.msb, BitVec.getMsbD] using this
  unfold flagOf signCond
  rw [h2]
  simp only [h1, decide_eq_true_eq]

/-- How a flag-setting instruction ends, as one record update. -/
theorem writeDest_eq (dr : Reg) (v : Word) (s : State) :
    writeDest dr v s = { s with regs := s.regs.set dr v, cond := signCond v } := by
  simp [writeDest, setcc, State.setReg, State.reg, flagOf_eq_signCond]

/-- Runs compose. -/
theorem Reaches.trans {s t u : State} (h : Reaches s t) (h' : Reaches t u) : Reaches s u := by
  induction h' with
  | refl => exact h
  | step _ hs ih => exact .step ih hs

end Sys2Proof.Machine
end

