-- ==== Sys2Proof/Laws/PerInstr.lean ====
section
/-! SUPPORT. The fields of an encoded word read back (spec/30_encoding.md R81), and the family RoundTrip: decoding the word of
a canonical instruction gives it back, one lemma per constructor. -/

namespace Sys2Proof

@[simp] theorem regOf_code (r : Reg) : regOf r.code = r := by cases r <;> rfl

section Pieces

variable {a n : Nat}

theorem extract_append_high (x : BitVec a) (z : BitVec n) (k len : Nat) :
    (x ++ z).extractLsb' (n + k) len = x.extractLsb' k len := by
  ext i hi; simp [BitVec.getLsbD_append, Nat.add_assoc]

theorem extract_append_low (x : BitVec a) (z : BitVec n) : (x ++ z).extractLsb' 0 n = z := by
  ext i hi; simp [BitVec.getLsbD_append, hi]

theorem extract_all (z : BitVec n) : z.extractLsb' 0 n = z := by
  ext i hi; simp

theorem bit_append_high (x : BitVec a) (z : BitVec n) (k : Nat) : (x ++ z).getLsbD (n + k) = x.getLsbD k := by
  simp [BitVec.getLsbD_append]

theorem bit_append_low (x : BitVec a) (z : BitVec n) {k : Nat} (h : k < n) : (x ++ z).getLsbD k = z.getLsbD k := by
  simp [BitVec.getLsbD_append, h]

end Pieces

section PC9

variable (op : BitVec 4) (c : BitVec 3) (r : Reg) (off9 : BitVec 9)

theorem fOpcode_pc9 : fOpcode (op ++ c ++ off9) = op :=
  (extract_append_high (op ++ c) off9 3 4).trans ((extract_append_high op c 0 4).trans (extract_all op))

theorem fOff9_pc9 : fOff9 (op ++ c ++ off9) = off9 := extract_append_low (op ++ c) off9

@[simp] theorem fOpcode_encPC9 : fOpcode (encPC9 op r off9) = op := fOpcode_pc9 op r.code off9

@[simp] theorem fDr_encPC9 : fDr (encPC9 op r off9) = r :=
  (congrArg regOf ((extract_append_high (op ++ r.code) off9 0 3).trans (extract_append_low op r.code))).trans
    (regOf_code r)

@[simp] theorem fOff9_encPC9 : fOff9 (encPC9 op r off9) = off9 := fOff9_pc9 op r.code off9

@[simp] theorem fOpcode_encBRF : fOpcode (encBRF c off9) = 0x0 := fOpcode_pc9 0x0 c off9

@[simp] theorem fOff9_encBRF : fOff9 (encBRF c off9) = off9 := fOff9_pc9 0x0 c off9

@[simp] theorem bit11_encBRF : (encBRF c off9)[11] = (c)[2] :=
  (bit_append_high (0x0#4 ++ c) off9 2).trans (bit_append_low 0x0#4 c (by decide))

@[simp] theorem bit10_encBRF : (encBRF c off9)[10] = (c)[1] :=
  (bit_append_high (0x0#4 ++ c) off9 1).trans (bit_append_low 0x0#4 c (by decide))

@[simp] theorem bit9_encBRF : (encBRF c off9)[9] = (c)[0] :=
  (bit_append_high (0x0#4 ++ c) off9 0).trans (bit_append_low 0x0#4 c (by decide))

end PC9

section Cond3

variable (n z p : Bool)

@[simp] theorem cond3_bit2 : (cond3 n z p)[2] = n := by cases n <;> cases z <;> cases p <;> rfl

@[simp] theorem cond3_bit1 : (cond3 n z p)[1] = z := by cases n <;> cases z <;> cases p <;> rfl

@[simp] theorem cond3_bit0 : (cond3 n z p)[0] = p := by cases n <;> cases z <;> cases p <;> rfl

end Cond3

section Base6

variable (op : BitVec 4) (b c : BitVec 3) (r base : Reg) (off6 : BitVec 6)

theorem fOpcode_base6 : fOpcode (op ++ b ++ c ++ off6) = op :=
  (extract_append_high (op ++ b ++ c) off6 6 4).trans ((extract_append_high (op ++ b) c 3 4).trans
    ((extract_append_high op b 0 4).trans (extract_all op)))

theorem fDr_base6 : fDr (op ++ b ++ c ++ off6) = regOf b :=
  congrArg regOf ((extract_append_high (op ++ b ++ c) off6 3 3).trans ((extract_append_high (op ++ b) c 0 3).trans
    (extract_append_low op b)))

theorem fSr1_base6 : fSr1 (op ++ b ++ c ++ off6) = regOf c :=
  congrArg regOf ((extract_append_high (op ++ b ++ c) off6 0 3).trans (extract_append_low (op ++ b) c))

theorem bit11_base6 : (op ++ b ++ c ++ off6 : Word).getLsbD 11 = b.getLsbD 2 :=
  (bit_append_high (op ++ b ++ c) off6 5).trans ((bit_append_high (op ++ b) c 2).trans
    (bit_append_low op b (by decide)))

@[simp] theorem fOpcode_encBASE6 : fOpcode (encBASE6 op r base off6) = op := fOpcode_base6 op r.code base.code off6

@[simp] theorem fDr_encBASE6 : fDr (encBASE6 op r base off6) = r :=
  (fDr_base6 op r.code base.code off6).trans (regOf_code r)

@[simp] theorem fSr1_encBASE6 : fSr1 (encBASE6 op r base off6) = base :=
  (fSr1_base6 op r.code base.code off6).trans (regOf_code base)

@[simp] theorem fOpcode_encJMPF : fOpcode (encJMPF op base) = op := fOpcode_base6 op 0#3 base.code 0#6

@[simp] theorem fSr1_encJMPF : fSr1 (encJMPF op base) = base :=
  (fSr1_base6 op 0#3 base.code 0#6).trans (regOf_code base)

@[simp] theorem bit11_encJMPF : (encJMPF op base)[11] = false := bit11_base6 op 0#3 base.code 0#6

@[simp] theorem fOpcode_encNOTF : fOpcode (encNOTF r base) = 0x9 := fOpcode_base6 0x9 r.code base.code 0x3F#6

@[simp] theorem fDr_encNOTF : fDr (encNOTF r base) = r :=
  (fDr_base6 0x9 r.code base.code 0x3F#6).trans (regOf_code r)

@[simp] theorem fSr1_encNOTF : fSr1 (encNOTF r base) = base :=
  (fSr1_base6 0x9 r.code base.code 0x3F#6).trans (regOf_code base)

@[simp] theorem fOff6_encBASE6 : fOff6 (encBASE6 op r base off6) = off6 :=
  extract_append_low (op ++ r.code ++ base.code) off6

end Base6

section OPR

variable (op : BitVec 4) (dr sr1 sr2 : Reg)

@[simp] theorem fOpcode_encOPR : fOpcode (encOPR op dr sr1 sr2) = op :=
  (extract_append_high (op ++ dr.code ++ sr1.code ++ 0#3) sr2.code 9 4).trans
    ((extract_append_high (op ++ dr.code ++ sr1.code) 0#3 6 4).trans
      ((extract_append_high (op ++ dr.code) sr1.code 3 4).trans
        ((extract_append_high op dr.code 0 4).trans (extract_all op))))

@[simp] theorem fDr_encOPR : fDr (encOPR op dr sr1 sr2) = dr :=
  (congrArg regOf ((extract_append_high (op ++ dr.code ++ sr1.code ++ 0#3) sr2.code 6 3).trans
    ((extract_append_high (op ++ dr.code ++ sr1.code) 0#3 3 3).trans
      ((extract_append_high (op ++ dr.code) sr1.code 0 3).trans (extract_append_low op dr.code))))).trans
    (regOf_code dr)

@[simp] theorem fSr1_encOPR : fSr1 (encOPR op dr sr1 sr2) = sr1 :=
  (congrArg regOf ((extract_append_high (op ++ dr.code ++ sr1.code ++ 0#3) sr2.code 3 3).trans
    ((extract_append_high (op ++ dr.code ++ sr1.code) 0#3 0 3).trans
      (extract_append_low (op ++ dr.code) sr1.code)))).trans (regOf_code sr1)

@[simp] theorem fSr2_encOPR : fSr2 (encOPR op dr sr1 sr2) = sr2 :=
  (congrArg regOf (extract_append_low (op ++ dr.code ++ sr1.code ++ 0#3) sr2.code)).trans (regOf_code sr2)

@[simp] theorem bit5_encOPR : (encOPR op dr sr1 sr2)[5] = false :=
  (bit_append_high (op ++ dr.code ++ sr1.code ++ 0#3) sr2.code 2).trans
    (bit_append_low (op ++ dr.code ++ sr1.code) 0#3 (by decide))

end OPR

section OPI

variable (op : BitVec 4) (dr sr1 : Reg) (imm5 : BitVec 5)

@[simp] theorem fOpcode_encOPI : fOpcode (encOPI op dr sr1 imm5) = op :=
  (extract_append_high (op ++ dr.code ++ sr1.code ++ 1#1) imm5 7 4).trans
    ((extract_append_high (op ++ dr.code ++ sr1.code) 1#1 6 4).trans
      ((extract_append_high (op ++ dr.code) sr1.code 3 4).trans
        ((extract_append_high op dr.code 0 4).trans (extract_all op))))

@[simp] theorem fDr_encOPI : fDr (encOPI op dr sr1 imm5) = dr :=
  (congrArg regOf ((extract_append_high (op ++ dr.code ++ sr1.code ++ 1#1) imm5 4 3).trans
    ((extract_append_high (op ++ dr.code ++ sr1.code) 1#1 3 3).trans
      ((extract_append_high (op ++ dr.code) sr1.code 0 3).trans (extract_append_low op dr.code))))).trans
    (regOf_code dr)

@[simp] theorem fSr1_encOPI : fSr1 (encOPI op dr sr1 imm5) = sr1 :=
  (congrArg regOf ((extract_append_high (op ++ dr.code ++ sr1.code ++ 1#1) imm5 1 3).trans
    ((extract_append_high (op ++ dr.code ++ sr1.code) 1#1 0 3).trans
      (extract_append_low (op ++ dr.code) sr1.code)))).trans (regOf_code sr1)

@[simp] theorem fImm5_encOPI : fImm5 (encOPI op dr sr1 imm5) = imm5 :=
  extract_append_low (op ++ dr.code ++ sr1.code ++ 1#1) imm5

@[simp] theorem bit5_encOPI : (encOPI op dr sr1 imm5)[5] = true :=
  (bit_append_high (op ++ dr.code ++ sr1.code ++ 1#1) imm5 0).trans
    (bit_append_low (op ++ dr.code ++ sr1.code) 1#1 (by decide))

end OPI

section JSRF

variable (off11 : BitVec 11)

@[simp] theorem fOpcode_encJSRF : fOpcode (encJSRF off11) = 0x4 :=
  (extract_append_high (0x4#4 ++ 1#1) off11 1 4).trans ((extract_append_high 0x4#4 1#1 0 4).trans (extract_all 0x4#4))

@[simp] theorem fOff11_encJSRF : fOff11 (encJSRF off11) = off11 := extract_append_low (0x4#4 ++ 1#1) off11

@[simp] theorem bit11_encJSRF : (encJSRF off11)[11] = true :=
  (bit_append_high (0x4#4 ++ 1#1) off11 0).trans (bit_append_low 0x4#4 1#1 (by decide))

end JSRF

end Sys2Proof

namespace Sys2Proof.Laws.RoundTrip

/-- What the family says of an instruction. -/
def Statement (i : Instr) : Prop := i.wf = true → decode (encode i) = i

theorem br (n z p : Bool) (off9 : BitVec 9) : Statement (.br n z p off9) := fun h => by
  simp only [Instr.wf] at h
  simp [decode, encode, decodeBr]
  cases n <;> cases z <;> simp_all

theorem addReg (dr sr1 sr2 : Reg) : Statement (.addReg dr sr1 sr2) := fun _ => by simp [decode, encode]

theorem addImm (dr sr1 : Reg) (imm5 : BitVec 5) : Statement (.addImm dr sr1 imm5) := fun _ => by
  simp [decode, encode]

theorem ld (dr : Reg) (off9 : BitVec 9) : Statement (.ld dr off9) := fun _ => by simp [decode, encode]

theorem st (sr : Reg) (off9 : BitVec 9) : Statement (.st sr off9) := fun _ => by simp [decode, encode]

theorem jsr (off11 : BitVec 11) : Statement (.jsr off11) := fun _ => by simp [decode, encode]

theorem jsrr (base : Reg) : Statement (.jsrr base) := fun _ => by simp [decode, encode]

theorem andReg (dr sr1 sr2 : Reg) : Statement (.andReg dr sr1 sr2) := fun _ => by simp [decode, encode]

theorem andImm (dr sr1 : Reg) (imm5 : BitVec 5) : Statement (.andImm dr sr1 imm5) := fun _ => by
  simp [decode, encode]

theorem ldr (dr base : Reg) (off6 : BitVec 6) : Statement (.ldr dr base off6) := fun _ => by simp [decode, encode]

theorem str (sr base : Reg) (off6 : BitVec 6) : Statement (.str sr base off6) := fun _ => by simp [decode, encode]

theorem rti : Statement .rti := fun _ => by decide

theorem not (dr sr : Reg) : Statement (.not dr sr) := fun _ => by simp [decode, encode]

theorem ldi (dr : Reg) (off9 : BitVec 9) : Statement (.ldi dr off9) := fun _ => by simp [decode, encode]

theorem sti (sr : Reg) (off9 : BitVec 9) : Statement (.sti sr off9) := fun _ => by simp [decode, encode]

theorem jmp (base : Reg) : Statement (.jmp base) := fun h => by
  simpa [decode, encode, decodeJmp, Instr.wf] using h

theorem res : Statement .res := fun _ => by decide

theorem lea (dr : Reg) (off9 : BitVec 9) : Statement (.lea dr off9) := fun _ => by simp [decode, encode]

theorem trap (v : Byte) : Statement (.trap v) := by
  unfold Statement
  revert v
  decide

theorem ret : Statement .ret := fun _ => by decide

theorem getc : Statement .getc := fun _ => by decide

theorem out : Statement .out := fun _ => by decide

theorem puts : Statement .puts := fun _ => by decide

theorem in_ : Statement .in_ := fun _ => by decide

theorem putsp : Statement .putsp := fun _ => by decide

theorem halt : Statement .halt := fun _ => by decide

theorem nop (off9 : BitVec 9) : Statement (.nop off9) := fun _ => by simp [decode, encode, decodeBr]

end Sys2Proof.Laws.RoundTrip
end

