-- ==== Sys2Proof/Tests/Slice0.lean ====
section
/-! SUPPORT. Tests and witnesses. Expected results are the derived vectors and the source's scenarios of
spec/95_test_vectors.md; words are written out from the formats of spec/30_encoding.md R81 and the numbers of
R90 and R91. Each `witness_<Name>` meets the hypotheses of the obligation of that name. -/

namespace Sys2Proof.Tests

open Sys2Proof Sys2Proof.Machine

/-- The next state of an outcome, if it is one. -/
def nextOf : Host.Outcome State Fault Refusal → Option State
  | .next t => some t
  | .fault _ => none
  | .refused _ => none

/-- The state before a step: `pc`, registers, flags and memory as given, no input. -/
def st (pc : Word) (regs : RegFile) (c : Cond) (mem : Memory) : State :=
  { State.reset with pc := pc, regs := regs, cond := c, mem := mem }

/-- All registers zero. -/
def z8 : RegFile := ⟨0, 0, 0, 0, 0, 0, 0, 0⟩

/-- What a row of spec/95_test_vectors.md section 2 shows of the next state: one register, `pc`, `cond`. -/
def shows (o : Host.Outcome State Fault Refusal) (r : Reg) (v pc : Word) (c : Cond) : Bool :=
  match nextOf o with
  | some t => t.reg r == v && t.pc == pc && t.cond == c
  | none => false

/-- A state with one listed character of input. -/
def w1 : State := { State.reset with consoleInput := [0x41] }

/-! ### Well-formedness: the second spellings are refused -/

theorem test_wf_refuses_br_without_condition : (Instr.br false false false 2).wf = false := by decide
theorem test_wf_refuses_jmp_r7 : (Instr.jmp .r7).wf = false := by decide
theorem test_wf_refuses_trap_of_a_known_vector :
    (Instr.trap 0x20).wf = false ∧ (Instr.trap 0x21).wf = false ∧ (Instr.trap 0x22).wf = false ∧
    (Instr.trap 0x23).wf = false ∧ (Instr.trap 0x24).wf = false ∧ (Instr.trap 0x25).wf = false := by decide
theorem test_wf_accepts_the_neighbours :
    (Instr.br false false true 2).wf = true ∧ (Instr.jmp .r6).wf = true ∧
    (Instr.trap 0x1F).wf = true ∧ (Instr.trap 0x26).wf = true := by decide

/-! ### Decoding: a word of every constructor -/

theorem test_decode_br : decode 0b0000100000000010 = .br true false false 2 := by decide
theorem test_decode_nop : decode 0b0000000000000010 = .nop 2 := by decide
theorem test_decode_add_reg : decode 0b0001000001000010 = .addReg .r0 .r1 .r2 := by decide
theorem test_decode_add_imm : decode 0b0001011100110000 = .addImm .r3 .r4 0x10 := by decide
theorem test_decode_ld : decode 0b0010010111111111 = .ld .r2 0x1FF := by decide
theorem test_decode_st : decode 0b0011011100000001 = .st .r3 0x101 := by decide
theorem test_decode_jsr : decode 0b0100110000000001 = .jsr 0x401 := by decide
theorem test_decode_jsrr : decode 0b0100000101000000 = .jsrr .r5 := by decide
theorem test_decode_and_reg : decode 0b0101101110000111 = .andReg .r5 .r6 .r7 := by decide
theorem test_decode_and_imm : decode 0b0101010011101111 = .andImm .r2 .r3 0x0F := by decide
theorem test_decode_ldr : decode 0b0110100010111110 = .ldr .r4 .r2 0x3E := by decide
theorem test_decode_str : decode 0b0111001110000001 = .str .r1 .r6 1 := by decide
theorem test_decode_rti : decode 0b1000111111111111 = .rti := by decide
theorem test_decode_not : decode 0b1001001010111111 = .not .r1 .r2 := by decide
theorem test_decode_ldi : decode 0b1010001000000010 = .ldi .r1 2 := by decide
theorem test_decode_sti : decode 0b1011110000000001 = .sti .r6 1 := by decide
theorem test_decode_jmp : decode 0b1100000011000000 = .jmp .r3 := by decide
theorem test_decode_ret : decode 0b1100111111111111 = .ret := by decide
theorem test_decode_res : decode 0b1101000100100011 = .res := by decide
theorem test_decode_lea : decode 0b1110101100000000 = .lea .r5 0x100 := by decide
theorem test_decode_trap : decode 0b1111000000100110 = .trap 0x26 := by decide
theorem test_decode_getc : decode 0b1111000000100000 = .getc := by decide
theorem test_decode_out : decode 0b1111000000100001 = .out := by decide
theorem test_decode_puts : decode 0b1111000000100010 = .puts := by decide
theorem test_decode_in : decode 0b1111000000100011 = .in_ := by decide
theorem test_decode_putsp : decode 0b1111000000100100 = .putsp := by decide
theorem test_decode_halt : decode 0b1111111100100101 = .halt := by decide
theorem test_encode_p2 :
    [encode (.andImm .r0 .r0 0), encode (.andImm .r1 .r1 0), encode (.addImm .r1 .r1 5), encode (.addReg .r0 .r0 .r1),
      encode (.addImm .r1 .r1 0x1F), encode (.br false false true 0x1FD), encode .halt]
    = [0x5020, 0x5260, 0x1265, 0x1001, 0x127F, 0x03FD, 0xF025] := by decide
theorem test_decode_table_word_takes_one_word :
    decodeTableWord 16 0xF025 = some .halt ∧ decodeTableWord 32 0xF025 = none := by decide

/-! ### One step per instruction (spec/95_test_vectors.md section 2) -/

theorem test_add_reg_overflows_to_negative :
    shows (step (st 0x3000 { z8 with r1 := 0x7FFF, r2 := 1 } .z [(0x3000, 0x1042)])) .r0 0x8000 0x3001 .n = true := by
  decide
theorem test_add_reg_same_register :
    shows (step (st 0x3000 { z8 with r1 := 0x4001 } .z [(0x3000, 0x1241)])) .r1 0x8002 0x3001 .n = true := by decide
theorem test_add_imm_minus_sixteen :
    shows (step (st 0x3000 { z8 with r0 := 0x0010 } .p [(0x3000, 0x1030)])) .r0 0 0x3001 .z = true := by decide
theorem test_add_imm_pc_wraps :
    shows (step (st 0xFFFF z8 .z [(0xFFFF, 0x1021)])) .r0 1 0 .p = true := by decide
theorem test_and_reg :
    shows (step (st 0x3000 { z8 with r0 := 0xFFFF, r1 := 0xF0F0, r2 := 0x3C3C } .z [(0x3000, 0x5042)]))
      .r0 0x3030 0x3001 .p = true := by decide
theorem test_and_imm_sign_extends :
    shows (step (st 0x3000 { z8 with r2 := 0xABCD } .p [(0x3000, 0x54B0)])) .r2 0xABC0 0x3001 .n = true := by decide
theorem test_not_ignored_bits_zero :
    shows (step (st 0x3000 { z8 with r1 := 0x8000 } .n [(0x3000, 0x9240)])) .r1 0x7FFF 0x3001 .p = true := by decide
theorem test_br_taken_backwards :
    shows (step (st 0x0001 z8 .n [(1, 0x0BFD)])) .r0 0 0xFFFF .n = true := by decide
theorem test_br_not_taken :
    shows (step (st 0x3000 z8 .p [(0x3000, 0x0C05)])) .r0 0 0x3001 .p = true := by decide
theorem test_nop :
    shows (step (st 0x3000 z8 .n [(0x3000, 0x0002)])) .r0 0 0x3001 .n = true := by decide
theorem test_jmp :
    shows (step (st 0x3000 { z8 with r3 := 0x4000 } .z [(0x3000, 0xC0C0)])) .r3 0x4000 0x4000 .z = true := by decide
theorem test_ret :
    shows (step (st 0x3000 { z8 with r7 := 0x3005 } .n [(0x3000, 0xC1C0)])) .r7 0x3005 0x3005 .n = true := by decide
theorem test_jsr_negative :
    shows (step (st 0x3000 z8 .p [(0x3000, 0x4C00)])) .r7 0x3001 0x2C01 .p = true := by decide
theorem test_jsrr :
    shows (step (st 0x3000 { z8 with r2 := 0x4000 } .z [(0x3000, 0x46BF)])) .r7 0x3001 0x4000 .z = true := by decide
theorem test_jsrr_r7_falls_through :
    shows (step (st 0x3000 { z8 with r7 := 0x5000 } .z [(0x3000, 0x41C0)])) .r7 0x3001 0x3001 .z = true := by decide
theorem test_ld_own_word :
    shows (step (st 0x3000 z8 .p [(0x3000, 0x25FF)])) .r2 0x25FF 0x3001 .p = true := by decide
theorem test_ldi :
    shows (step (st 0x3000 z8 .z [(0x3000, 0xA202), (0x3003, 0x4000), (0x4000, 0x0042)])) .r1 0x0042 0x3001 .p = true := by
  decide
theorem test_ldi_kbsr_without_a_key :
    shows (step (st 0x3000 z8 .p [(0x3000, 0xA001), (0x3002, 0xFE00), (0xFE00, 0x9234)])) .r0 0x1234 0x3001 .p = true := by
  decide
theorem test_ldr_base_is_destination :
    shows (step (st 0x3000 { z8 with r2 := 0x4000 } .p [(0x3000, 0x649F), (0x401F, 0x9000)])) .r2 0x9000 0x3001 .n = true := by
  decide
theorem test_ldr_wraps :
    shows (step (st 0x3000 { z8 with r1 := 0x0010 } .p [(0x3000, 0x6060), (0xFFF0, 0xFFFF)])) .r0 0xFFFF 0x3001 .n = true := by
  decide
theorem test_lea_sets_flags :
    shows (step (st 0xFFFF { z8 with r5 := 1 } .p [(0xFFFF, 0xEA00)])) .r5 0 0 .z = true := by decide
theorem test_st :
    (nextOf (step (st 0x3000 { z8 with r3 := 0xABCD } .p [(0x3000, 0x37FE)]))).map (·.mem)
      = some [(0x2FFF, 0xABCD), (0x3000, 0x37FE)] := by decide
theorem test_sti :
    (nextOf (step (st 0x3000 { z8 with r1 := 7 } .n [(0x3000, 0xB201), (0x3002, 0x3002)]))).map (·.mem)
      = some [(0x3000, 0xB201), (0x3002, 7)] := by decide
theorem test_str_wraps :
    (nextOf (step (st 0x3000 { z8 with r0 := 0x00AA, r1 := 0xFFFF } .z [(0x3000, 0x7041)]))).map (·.mem)
      = some [(0, 0x00AA), (0x3000, 0x7041)] := by decide
theorem test_store_to_kbsr_is_plain :
    (nextOf (step (st 0xFDFF { z8 with r3 := 0xFFFF } .p [(0xFDFF, 0x3600)]))).map (·.mem)
      = some [(0xFDFF, 0x3600), (0xFE00, 0xFFFF)] := by decide
theorem test_getc_sets_no_flag :
    (nextOf (step { st 0x3000 { z8 with r0 := 0xFFFF, r7 := 0x1234 } .n [(0x3000, 0xF020)] with consoleInput := [0] })).map
      (fun t => (t.regs, t.cond, t.inPos, t.output)) = some ({ z8 with r7 := 0x1234 }, .n, 1, []) := by decide
theorem test_getc_waits :
    (nextOf (step (st 0x3000 z8 .n [(0x3000, 0xF020)]))).map (fun t => (t.wait, (nextOf (step t)).isNone))
      = some (some .getc, true) := by decide
theorem test_in_registers :
    (nextOf (step { st 0x3000 { z8 with r0 := 0xFFFF } .n [(0x3000, 0xF023)] with consoleInput := [0x7A] })).map
      (fun t => (t.regs, t.cond, t.inPos)) = some ({ z8 with r0 := 0x007A }, .n, 1) := by decide
theorem test_in_echoes :
    (nextOf (step { st 0x3000 { z8 with r0 := 0xFFFF } .n [(0x3000, 0xF023)] with consoleInput := [0x7A] })).map
      (·.output) = some ([] ++ Config.inPrompt ++ [0x7A]) := rfl
theorem test_endless_input_follows_the_listed_characters (k : Nat) :
    ({ w1 with inputTail := .endless k } : State).inputAt 0 = some 0x41 ∧
    ({ w1 with inputTail := .endless k } : State).inputAt 1 = some (Config.endlessInput k 1) ∧ w1.inputAt 1 = none :=
  ⟨rfl, rfl, rfl⟩
theorem test_out_low_byte :
    (nextOf (step (st 0x3000 { z8 with r0 := 0x4100 } .n [(0x3000, 0xF021)]))).map (fun t => (t.output, t.flushed, t.cond))
      = some ([0x00], 1, .n) := by decide
theorem test_puts_tests_the_whole_word :
    (nextOf (step (st 0x3000 { z8 with r0 := 0x3010 } .p
      [(0x3000, 0xF022), (0x3010, 0x4148), (0x3011, 0x0100), (0x3012, 0x0049)]))).map (fun t => (t.output, t.flushed, t.regs.r0))
      = some ([0x48, 0x00, 0x49], 3, 0x3010) := by decide
theorem test_puts_across_the_top :
    (nextOf (step (st 0x3000 { z8 with r0 := 0xFFFF } .p [(0, 0x0042), (0x3000, 0xF022), (0xFFFF, 0x0041)]))).map (·.output)
      = some [0x41, 0x42] := by decide
theorem test_putsp_odd_length :
    (nextOf (step (st 0x3000 { z8 with r0 := 0x3010 } .p
      [(0x3000, 0xF024), (0x3010, 0x6548), (0x3011, 0x006C), (0x3012, 0x6F6C)]))).map (·.output)
      = some [0x48, 0x65, 0x6C] := by decide
theorem test_putsp_zero_low_byte :
    (nextOf (step (st 0x3000 { z8 with r0 := 0x3010 } .p [(0x3000, 0xF024), (0x3010, 0x4100), (0x3011, 0x4242)]))).map
      (·.output) = some [] := by decide
theorem test_halt :
    (nextOf (step (st 0x3000 z8 .p [(0x3000, 0xFF25)]))).map (fun t => (t.run, t.fault, t.pc, (nextOf (step t)).isNone))
      = some (.halted, none, 0x3001, true) := by decide
theorem test_trap_unknown_vector :
    (nextOf (step (st 0x3000 z8 .p [(0x3000, 0xF01F)]))).map (fun t => (t.run, t.fault, t.pc))
      = some (.halted, some (.unknownTrapVector 0x1F), 0x3001) := by decide
theorem test_rti_is_fatal :
    (nextOf (step (st 0x3000 z8 .n [(0x3000, 0x8FFF)]))).map (fun t => (t.run, t.fault, t.pc, t.cond))
      = some (.halted, some (.reservedOpcode .rti), 0x3001, .n) := by decide
theorem test_res_is_fatal :
    (nextOf (step (st 0xFFFF z8 .p [(0xFFFF, 0xDFFF)]))).map (fun t => (t.run, t.fault, t.pc, t.cond))
      = some (.halted, some (.reservedOpcode .res), 0, .p) := by decide

theorem test_loop_ends_in_its_third_turn :
    runFor putsWord 2 0xFFFF { State.reset with mem := [(0, 0x0042), (0xFFFF, 0x0041)] } = none ∧
    (runFor putsWord 3 0xFFFF { State.reset with mem := [(0, 0x0042), (0xFFFF, 0x0041)] }).map (·.output) = some [0x41, 0x42] := by
  decide

/-! ### The image of the source's scenario (spec/95_test_vectors.md 1.7) -/

theorem test_image_of_p1 :
    loadImage [0x30, 0x00, 0x50, 0x20, 0x10, 0x25, 0xF0, 0x25]
      = some [(0x3000, 0x5020), (0x3001, 0x1025), (0x3002, 0xF025)] := by decide
theorem test_image_too_long : loadImage [0xFF, 0xFF, 0x00, 0x01, 0x00, 0x02] = none := by decide
theorem test_reset_memory_canonical : State.reset.mem.wf = true := by decide
theorem test_writing_zero_unlists_the_cell :
    Memory.write [(0x3000, 0x3600), (0x3001, 7)] 0x3001 0 = [(0x3000, 0x3600)] := by decide
theorem test_memory_form_refuses :
    Memory.wf [(2, 1), (1, 1)] = false ∧ Memory.wf [(1, 0)] = false ∧ Memory.wf [(65536, 1)] = false := by decide

/-! ### Witnesses: states and operands that meet the hypotheses of the obligations -/

/-- A state at 0x3001 (the incremented pc) with a pointer, two strings and one character of input. -/
def w0 : State :=
  { st 0x3001 { z8 with r0 := 0x3010, r3 := 0xF025 } .p
      [(0x3003, 0x4000), (0x3010, 0x6548), (0x3011, 0x6C6C), (0x4000, 0x0042)] with consoleInput := [0x41] }

/-- A string that runs into KBSR, which reads as zero while no key is there. -/
def wKbsr : State := st 0x3001 { z8 with r0 := 0xFDFF } .p [(0xFDFF, 0x4142)]

/-- A memory with every cell equal to 0x0101: no terminator anywhere. -/
def fullMem : Memory := (List.range' 0 65536).map fun i => (i, 0x0101)

/-- The state of a machine with no terminator anywhere and no input. -/
def wFull : State := st 0x3001 z8 .z fullMem

/-- A waiting machine whose input is used up. -/
def wWait (which : BlockedRead) : State := { w0 with inPos := 1, wait := some which }

theorem lookup_run (v : Word) (a n k : Nat) (h1 : k ≤ a) (h2 : a < k + n) :
    Memory.lookup ((List.range' k n).map fun i => (i, v)) a = v := by
  induction n generalizing k with
  | zero => omega
  | succ n ih =>
    simp only [List.range'_succ, List.map_cons, Memory.lookup]
    split
    · rfl
    · exact ih (k + 1) (by omega) (by omega)

theorem fullMem_read (a : Word) : Memory.read fullMem a = 0x0101 :=
  lookup_run 0x0101 a.toNat 65536 0 (Nat.zero_le _) (by have := a.isLt; omega)

theorem w0_inv : w0.Inv := ⟨by decide, by decide, by decide, by decide, by decide⟩

theorem witness_InvariantHoldsAtStart : (⟨z8, .n, [(0x3000, 0x5020)], [0x41], .endless 0⟩ : Launch).memInit.wf = true := by decide
theorem witness_ReadPollsOnlyAtKbsr : (0xFE02 : Word) ≠ 0xFE00 := by decide
theorem witness_LdiReadsPointerThenValue :
    memRead (BitVec.ofNat 16 (w0.pc.toNat + (sext (2 : BitVec 9)).toNat)) w0 = (0x4000, w0) ∧
    memRead 0x4000 w0 = (0x0042, w0) := by decide
theorem witness_LdiFollowsOneIndirection :
    w0.mem.read (BitVec.ofNat 16 (w0.pc.toNat + (sext (2 : BitVec 9)).toNat)) = 0x4000 ∧ w0.mem.read 0x4000 = 0x0042 ∧
    BitVec.ofNat 16 (w0.pc.toNat + (sext (2 : BitVec 9)).toNat) ≠ 0xFE00 ∧ (0x4000 : Word) ≠ 0xFE00 := by decide
theorem witness_StiStoresThroughThePointer :
    memRead (BitVec.ofNat 16 (w0.pc.toNat + (sext (2 : BitVec 9)).toNat)) w0 = (0x4000, w0) := by decide
theorem witness_GetcReadsOneCharacter : w0.inputAt w0.inPos = some 0x41 := by decide
theorem witness_InPromptsReadsAndEchoes : w0.inputAt w0.inPos = some 0x41 := by decide
theorem witness_BlockingReadWaits : wFull.inputAt wFull.inPos = none := rfl
theorem witness_WaitEndsWhenACharacterArrives (which : BlockedRead) :
    (wWait which).run = .running ∧ (wWait which).inputTail = .ended ∧
    (wWait which).inPos = (wWait which).consoleInput.length ∧ (wWait which).wait = some which := ⟨rfl, rfl, rfl, rfl⟩
theorem witness_PutsWritesTheString :
    (∀ i (h : i < [0x6548#16, 0x6C6C#16].length), w0.mem.read (w0.reg .r0 + BitVec.ofNat 16 i) = [0x6548#16, 0x6C6C#16][i] ∧
      [0x6548#16, 0x6C6C#16][i] ≠ 0) ∧
    w0.mem.read (w0.reg .r0 + BitVec.ofNat 16 2) = 0 ∧
    (∀ i ≤ 2, w0.reg .r0 + BitVec.ofNat 16 i ≠ 0xFE00) := by decide
theorem witness_PutsFollowsItsReads :
    PutsReads [0x4142] (wKbsr.reg .r0) wKbsr { wKbsr with output := [0x42], pollCount := 1 } ∧
    wKbsr.reg .r0 = 0xFDFF := ⟨⟨by decide, by decide, by decide, by decide⟩, by decide⟩
theorem witness_PutspWritesThePackedString :
    (∀ i (h : i < [0x6548#16, 0x6C6C#16].length), w0.mem.read (w0.reg .r0 + BitVec.ofNat 16 i) = [0x6548#16, 0x6C6C#16][i] ∧
      loByte [0x6548#16, 0x6C6C#16][i] ≠ 0 ∧ hiByte [0x6548#16, 0x6C6C#16][i] ≠ 0) ∧
    w0.mem.read (w0.reg .r0 + BitVec.ofNat 16 2) = 0 ∧ (loByte 0 = 0 ∨ hiByte 0 = 0) ∧
    (∀ i ≤ 2, w0.reg .r0 + BitVec.ofNat 16 i ≠ 0xFE00) := by decide
theorem witness_PutspWritesThePackedString_high_byte_zero : loByte 0x006C ≠ 0 ∧ hiByte 0x006C = 0 := by decide
theorem witness_PutspFollowsItsReads :
    PutspReads [0x4142] (wKbsr.reg .r0) wKbsr { wKbsr with output := [0x42, 0x41], pollCount := 1 } ∧
    wKbsr.reg .r0 = 0xFDFF := ⟨⟨by decide, by decide, by decide, .inl (by decide)⟩, by decide⟩
theorem witness_StringWithoutTerminatorHasNoStep :
    (∀ a, wFull.mem.read a ≠ 0) ∧ wFull.mem.read 0xFE00 &&& 0x7FFF ≠ 0 ∧
    (∀ n, wFull.inPos ≤ n → wFull.inputAt n ≠ some 0) ∧
    (∀ a, loByte (wFull.mem.read a) ≠ 0 ∧ hiByte (wFull.mem.read a) ≠ 0) ∧
    hiByte (wFull.mem.read 0xFE00 &&& 0x7FFF) ≠ 0 ∧ wFull.inputAt wFull.inPos = none := by
  have h : ∀ a, wFull.mem.read a = 0x0101 := fullMem_read
  refine ⟨fun a => ?_, ?_, fun n _ => by simp [State.inputAt, wFull, st, State.reset, State.launch, Launch.reset],
    fun a => ?_, ?_, rfl⟩ <;> rw [h] <;> decide
theorem witness_UnknownVectorIsFatal :
    (0x1F : Byte).toNat < 0x20 ∧ 0x25 < (0x26 : Byte).toNat ∧ 0x25 < (0xFF : Byte).toNat ∧ (0x00 : Byte).toNat < 0x20 := by
  decide
theorem witness_TrapsIgnoreTheVectorTable : (0x20 : Byte) ≠ 0x22 ∧ (0x20 : Byte) ≠ 0x24 := by decide
theorem witness_FlagsAreWrittenBySevenInstructionsOnly :
    exec (.lea .r3 2) w0 = .next { w0 with regs := w0.regs.set .r3 0x3003 } ∧ flagDest (.lea .r3 2) = some .r3 ∧
    exec (.nop 2) w0 = .next w0 ∧ flagDest (.nop 2) = none := ⟨rfl, rfl, rfl, rfl⟩
theorem witness_OnlyTheDestinationRegisterChanges :
    exec (.lea .r3 2) w0 = .next { w0 with regs := w0.regs.set .r3 0x3003 } ∧ destReg (.lea .r3 2) ≠ some .r4 :=
  ⟨rfl, by decide⟩
theorem witness_OnlyStoredAndKeyboardCellsChange :
    exec (.st .r3 2) w0 = .next { w0 with mem := w0.mem.write 0x3003 0xF025 } ∧
    storeAddr w0 (.st .r3 2) ≠ some 0x4000 ∧ (0x4000 : Word) ≠ 0xFE00 ∧ (0x4000 : Word) ≠ 0xFE02 ∧
    exec (.nop 2) w0 = .next w0 ∧ accessesData (.nop 2) = false :=
  ⟨rfl, by decide, by decide, by decide, rfl, rfl⟩
theorem witness_PcStaysIncrementedExceptByControlTransfer :
    exec (.lea .r3 2) w0 = .next { w0 with regs := w0.regs.set .r3 0x3003 } ∧ writesPc (.lea .r3 2) = false :=
  ⟨rfl, rfl⟩
theorem witness_OutputIsWrittenByFiveRoutinesOnly :
    exec .out w0 = .next { w0 with output := [0x10], flushed := 1 } ∧
    exec .getc w0 = .next { w0 with regs := w0.regs.set .r0 0x41, inPos := 1 } ∧ writesOutput .getc = false ∧
    exec .in_ w0 = .next (takeChar .in_ 0x41 (consolePutAll Config.inPrompt w0)) :=
  ⟨rfl, rfl, rfl, rfl⟩
theorem witness_IllegalWordsAreExactlyTheListedOnes :
    w0.fault = none ∧ exec (decode 0xD123) w0 = .next (raiseFatal (.reservedOpcode .res) w0) ∧
    exec (decode 0x0002) w0 = .next w0 := ⟨rfl, rfl, rfl⟩
theorem witness_StepRunsTheFetchedInstruction : w0.run = .running ∧ w0.wait = none ∧ w0.pc ≠ 0xFE00 := by decide

/-- A state that fetches from a zero KBSR, with one character of input. -/
def wFetchKbsr : State := { w0 with pc := 0xFE00 }

theorem witness_FetchFromKbsrExecutesTheStatusWord :
    wFetchKbsr.run = .running ∧ wFetchKbsr.wait = none ∧ wFetchKbsr.pc = 0xFE00 ∧ wFetchKbsr.mem.read 0xFE00 = 0 := by decide

/-- Both cases of the poll are met: with the input used up it finds none, and with the free answer "available" the character. -/
theorem witness_FetchFromKbsrExecutesTheStatusWord_cases :
    ({ wFetchKbsr with inPos := 1 } : State).inputAt 1 = none ∧ wFetchKbsr.inputAt wFetchKbsr.inPos = some 0x41 := by decide

theorem witness_HaltedIsTerminal :
    (raiseFatal (.reservedOpcode .res) w0).run = .halted ∧
    Reaches (raiseFatal (.reservedOpcode .res) w0) (raiseFatal (.reservedOpcode .res) w0) := ⟨rfl, .refl _⟩

/-- A state that fetches RES, and the state its step leaves. -/
def wRes : State := st 0x3002 z8 .p [(0x3002, 0xD123)]
def wResAfter : State := { wRes with pc := 0x3003, run := .halted, fault := some (.reservedOpcode .res) }

theorem wRes_step : step wRes = .next wResAfter := rfl
theorem wRes_inv : wRes.Inv := ⟨by decide, by decide, by decide, by decide, by decide⟩

theorem witness_HaltedIsEnteredByHaltOrFatalErrorOnly : step wRes = .next wResAfter ∧ wResAfter.run = .halted :=
  ⟨wRes_step, rfl⟩
theorem witness_FaultIsNeverClearedOrSurvived :
    wRes.Inv ∧ Reaches wRes wResAfter ∧ wResAfter.fault ≠ none ∧ Reaches wResAfter wResAfter :=
  ⟨wRes_inv, .step (.refl _) wRes_step, by decide, .refl _⟩

/-- A state whose instruction, ST R3,#0, stores HALT over the next one. -/
def wSelf : State := st 0x3000 { z8 with r3 := 0xF025 } .p [(0x3000, 0x3600)]

theorem witness_StoreIsSeenByTheNextFetch :
    wSelf.run = .running ∧ wSelf.wait = none ∧ wSelf.pc ≠ 0xFE00 ∧ wSelf.pc ≠ 0xFDFF ∧
    decode (wSelf.mem.read wSelf.pc) = .st .r3 0 := by decide
theorem witness_EveryStepKeepsTheInvariant : wRes.Inv ∧ step wRes = .next wResAfter := ⟨wRes_inv, wRes_step⟩
theorem witness_RunsOnlyAppendOutputAndConsumeInput : Reaches wRes wResAfter := .step (.refl _) wRes_step
theorem witness_PlacedWordRunsNext :
    w0.pc ≠ Config.kbsrAddr ∧ wFetchKbsr.pc = Config.kbsrAddr ∧
    (wFetchKbsr.withFetchWord 16 0x5020).mem.read Config.pcReset = 0x5020 ∧
    (nextOf (step (wFetchKbsr.withFetchWord 16 0x5020))).map (fun t => (t.pc, t.regs.r0, t.cond)) = some (0x3001, 0, .z) := by
  decide
theorem witness_RunsWithArrivalsKeepTheInvariant :
    ReachesWithArrivals wRes (supplyInput [0x41] wResAfter) ∧ wRes.Inv ∧
    ReachesWithArrivals { wRes with inputTail := .endless 0 } { wRes with inputTail := .endless 0 } ∧
    InputTail.endless 0 ≠ .ended := ⟨.arrive (.step (.refl _) wRes_step) rfl _, wRes_inv, .refl _, by decide⟩
theorem witness_DecodeOfEncodeIsIdentity : (Instr.jmp .r6).wf = true ∧ Instr.halt.wf = true := by decide
theorem witness_IgnoredBitsDoNotMatter :
    (0x105B : Word) &&& 0xF020 = 0x1000 ∧ (0x5B86 : Word) &&& 0xF020 = 0x5000 ∧ (0x92BF : Word) &&& 0xF000 = 0x9000 ∧
    (0xC1C0 : Word) &&& 0xF000 = 0xC000 ∧ (0x46BF : Word) &&& 0xF800 = 0x4000 ∧ (0xF025 : Word) &&& 0xF000 = 0xF000 ∧
    (0x8FFF : Word) &&& 0xF000 = 0x8000 ∧ (0xD123 : Word) &&& 0xF000 = 0xD000 := by decide
theorem witness_ImageIsStoredFromItsOrigin :
    loadImage (([0x3000#16, 0x5020#16, 0xF025#16]).flatMap fun w => [hiByte w, loByte w])
      = some [(0x3000, 0x5020), (0x3001, 0xF025)] ∧
    loadImage (([0xFFFF#16, 0x5020#16, 0xF025#16]).flatMap fun w => [hiByte w, loByte w]) = none := by decide

end Sys2Proof.Tests
end

section
/-! The value of the operand extensions of spec/00_scope.md R9, and the obligation about them. -/

namespace Sys2Proof.Machine

/-- R9 for a field of any width that fits in a word: the bits above the field are copies of its top bit. -/
theorem toNat_sext {n : Nat} (hn : n ≤ 16) (v : BitVec n) :
    (sext v).toNat = if v.getLsbD (n - 1) then v.toNat + (65536 - 2 ^ n) else v.toNat := by
  rw [sext, BitVec.toNat_signExtend, BitVec.toNat_setWidth_of_le hn, BitVec.msb_eq_getLsbD_last]
  split
  · rfl
  · rw [Nat.add_zero]

@[simp] theorem toNat_zext8 (c : Byte) : (zext8 c).toNat = c.toNat :=
  BitVec.toNat_setWidth_of_le (by decide)

/-- Settles O3: each field width is an instance of `toNat_sext`. -/
theorem signExtensionFillsWithTheTopBit : Obligations.SignExtensionFillsWithTheTopBit :=
  ⟨toNat_sext (by decide), toNat_sext (by decide), toNat_sext (by decide), toNat_sext (by decide), toNat_zext8⟩

end Sys2Proof.Machine
end

section
/-! The condition flags as a frame over all instructions (spec/10_state.md R28), and the obligation about them. -/

namespace Sys2Proof.Machine

/-- R120: a register write with `setcc` leaves in `cond` the flag of what the register now holds. -/
theorem writeDest_cond_eq_signCond_reg (dr : Reg) (v : Word) (s : State) :
    (writeDest dr v s).cond = signCond ((writeDest dr v s).reg dr) := by
  rw [writeDest_cond, flagOf_eq_signCond, State.reg, writeDest_regs, RegFile.get_set_self]

@[simp] theorem branch_cond (n z p : Bool) (off9 : BitVec 9) (s : State) : (branch n z p off9 s).cond = s.cond := by
  unfold branch
  split
  · exact State.setPc_cond _ _
  · rfl

@[simp] theorem takeChar_cond (which : BlockedRead) (c : Byte) (s : State) : (takeChar which c s).cond = s.cond := by
  cases which <;> rfl

@[simp] theorem consoleGet_cond (which : BlockedRead) (s : State) : (consoleGet which s).cond = s.cond := by
  rcases consoleGet_cases which s with ⟨c, -, h⟩ | ⟨-, h⟩ <;> rw [h]
  exact takeChar_cond which c s

theorem StringEffect.cond_eq {s t : State} (h : StringEffect s t) : t.cond = s.cond := by
  obtain ⟨m, pos, n, cs, rfl, -⟩ := h
  rfl

theorem trapPuts_cond {s t : State} (h : trapPuts s = .next t) : t.cond = s.cond := by
  rcases trapPuts_cases s with ⟨u, -, hu, h'⟩ | ⟨-, h'⟩ <;> rw [h'] at h <;> cases h
  exact hu.cond_eq

theorem trapPutsp_cond {s t : State} (h : trapPutsp s = .next t) : t.cond = s.cond := by
  rcases trapPutsp_cases s with ⟨u, -, hu, h'⟩ | ⟨-, h'⟩ <;> rw [h'] at h <;> cases h
  exact hu.cond_eq

/-- No TRAP writes `cond`, whatever its vector (R28). -/
theorem trapDispatch_cond {v : Byte} {s t : State} (h : trapDispatch v s = .next t) : t.cond = s.cond := by
  rcases trapDispatch_cases v s with ⟨-, h'⟩ | ⟨-, h'⟩ | ⟨-, h'⟩ | ⟨-, h'⟩ | ⟨-, h'⟩ | ⟨-, h'⟩ | ⟨-, h'⟩ <;>
    rw [h'] at h
  · cases h; exact consoleGet_cond .getc s
  · cases h; rfl
  · exact trapPuts_cond h
  · cases h; exact consoleGet_cond .in_ _
  · exact trapPutsp_cond h
  · cases h; rfl
  · cases h; rfl

/-- Settles O39: the flag-setting instructions all end in `writeDest`, and no other operation touches `cond`. -/
theorem flagsAreWrittenBySevenInstructionsOnly : Obligations.FlagsAreWrittenBySevenInstructionsOnly := by
  intro i s t h
  cases i with
  | addReg | addImm | andReg | andImm | not | ld | ldi | ldr | lea =>
    cases h; exact writeDest_cond_eq_signCond_reg _ _ _
  | br | nop => cases h; exact branch_cond _ _ _ _ _
  | jmp | ret | jsr | jsrr | st | str | rti | res => cases h; rfl
  | sti => cases h; exact memRead_cond _ _
  | trap v => exact trapDispatch_cond h
  | getc => exact trapDispatch_cond (v := 0x20) h
  | out => exact trapDispatch_cond (v := 0x21) h
  | puts => exact trapDispatch_cond (v := 0x22) h
  | in_ => exact trapDispatch_cond (v := 0x23) h
  | putsp => exact trapDispatch_cond (v := 0x24) h
  | halt => exact trapDispatch_cond (v := 0x25) h

end Sys2Proof.Machine
end

section
/-! `MemWrite` as a function on memory cells and its frame (spec/20_memory.md R56, R57). -/

namespace Sys2Proof.Machine

/-- R56: what a read of the cells gives after a `MemWrite`; the keyboard addresses are no exception (R57). -/
theorem read_memWrite (a b v : Word) (s : State) :
    (memWrite a v s).mem.read b = if b = a then v else s.mem.read b := by
  rw [memWrite_mem, Memory.read_write]

/-- R56, the frame: `mem` is the only field a `MemWrite` can change. -/
theorem memWrite_eq_with_mem (a v : Word) (s : State) :
    memWrite a v s = { s with mem := (memWrite a v s).mem } := rfl

/-- Settles O17: the cells by `read_memWrite`, the rest of the state by `memWrite_eq_with_mem`. -/
theorem writeStoresOneCell : Obligations.WriteStoresOneCell :=
  fun a v s => ⟨fun b => read_memWrite a b v s, memWrite_eq_with_mem a v s⟩

end Sys2Proof.Machine
end

section
/-! The fatal decode error over all instructions and over all words (spec/30_encoding.md R92), and the obligation about it. -/

namespace Sys2Proof.Machine

/-- The fatal decode error an instruction takes, if it takes one (R92, R252). -/
def fatalCause : Instr → Option FatalCause
  | .rti => some (.reservedOpcode .rti)
  | .res => some (.reservedOpcode .res)
  | .trap v => if knownVector v then none else some (.unknownTrapVector v)
  | _ => none

/-- R91: the known vectors are one interval. -/
theorem knownVector_eq_false_iff (v : Byte) : knownVector v = false ↔ v.toNat < 0x20 ∨ 0x25 < v.toNat := by
  simp only [knownVector, Bool.or_eq_false_iff, beq_eq_false_iff_ne, ne_eq, ← BitVec.toNat_inj, BitVec.ofNat_eq_ofNat,
    BitVec.toNat_ofNat]
  omega

@[simp] theorem branch_fault (n z p : Bool) (off9 : BitVec 9) (s : State) : (branch n z p off9 s).fault = s.fault := by
  unfold branch
  split
  · exact State.setPc_fault _ _
  · rfl

@[simp] theorem loadInto_fault (dr : Reg) (ea : Word) (s : State) : (loadInto dr ea s).fault = s.fault :=
  (writeDest_fault _ _ _).trans (memRead_fault _ _)

@[simp] theorem takeChar_fault (which : BlockedRead) (c : Byte) (s : State) : (takeChar which c s).fault = s.fault := by
  cases which <;> rfl

@[simp] theorem consoleGet_fault (which : BlockedRead) (s : State) : (consoleGet which s).fault = s.fault := by
  rcases consoleGet_cases which s with ⟨c, -, h⟩ | ⟨-, h⟩ <;> rw [h]
  exact takeChar_fault which c s

theorem StringEffect.fault_eq {s t : State} (h : StringEffect s t) : t.fault = s.fault := by
  obtain ⟨m, pos, n, cs, rfl, -⟩ := h
  rfl

theorem trapPuts_fault {s t : State} (h : trapPuts s = .next t) : t.fault = s.fault := by
  rcases trapPuts_cases s with ⟨u, -, hu, h'⟩ | ⟨-, h'⟩ <;> rw [h'] at h <;> cases h
  exact hu.fault_eq

theorem trapPutsp_fault {s t : State} (h : trapPutsp s = .next t) : t.fault = s.fault := by
  rcases trapPutsp_cases s with ⟨u, -, hu, h'⟩ | ⟨-, h'⟩ <;> rw [h'] at h <;> cases h
  exact hu.fault_eq

/-- A TRAP records a fault for an unknown vector only; the six routines leave `fault` alone (R190, R198). -/
theorem trapDispatch_fault {v : Byte} {s t : State} (h : trapDispatch v s = .next t) :
    t.fault = (fatalCause (.trap v)).or s.fault := by
  rcases trapDispatch_cases v s with
      ⟨rfl, h'⟩ | ⟨rfl, h'⟩ | ⟨rfl, h'⟩ | ⟨rfl, h'⟩ | ⟨rfl, h'⟩ | ⟨rfl, h'⟩ | ⟨hv, h'⟩ <;>
    rw [h'] at h
  · cases h; exact consoleGet_fault .getc s
  · cases h; rfl
  · exact trapPuts_fault h
  · cases h; exact consoleGet_fault .in_ _
  · exact trapPutsp_fault h
  · cases h; rfl
  · cases h; simp [fatalCause, hv]

/-- The frame of `fault`: an instruction records its own fatal decode error, or leaves `fault` as it was. -/
theorem exec_fault {i : Instr} {s t : State} (h : exec i s = .next t) : t.fault = (fatalCause i).or s.fault := by
  cases i with
  | rti | res => cases h; rfl
  | trap v => exact trapDispatch_fault h
  | br | nop => cases h; exact branch_fault _ _ _ _ _
  | ld | ldr => cases h; exact loadInto_fault _ _ _
  | ldi => cases h; exact (loadInto_fault _ _ _).trans (memRead_fault _ _)
  | sti => cases h; exact memRead_fault _ _
  | addReg | addImm | andReg | andImm | not | lea | jmp | ret | jsr | jsrr | st | str => cases h; rfl
  | getc => exact trapDispatch_fault (v := 0x20) h
  | out => exact trapDispatch_fault (v := 0x21) h
  | puts => exact trapDispatch_fault (v := 0x22) h
  | in_ => exact trapDispatch_fault (v := 0x23) h
  | putsp => exact trapDispatch_fault (v := 0x24) h
  | halt => exact trapDispatch_fault (v := 0x25) h

@[simp] theorem fatalCause_decodeBr (n z p : Bool) (off9 : BitVec 9) : fatalCause (decodeBr n z p off9) = none := by
  unfold decodeBr
  split <;> rfl

@[simp] theorem fatalCause_decodeJmp (base : Reg) : fatalCause (decodeJmp base) = none := by
  unfold decodeJmp
  split <;> rfl

/-- Under the opcode of TRAP only the unknown vectors are illegal (R91, R92). -/
theorem fatalCause_decodeTrap_ne_none_iff (v : Byte) :
    fatalCause (decodeTrap v) ≠ none ↔ v.toNat < 0x20 ∨ 0x25 < v.toNat := by
  unfold decodeTrap
  split
  case h_7 =>
    rw [← knownVector_eq_false_iff]
    cases hv : knownVector v <;> simp [fatalCause, hv]
  all_goals simp [fatalCause, *]

theorem fVect8_toNat (w : Word) : (fVect8 w).toNat = w.toNat % 256 := by
  simp [fVect8]

/-- R92 about the decoder alone: the words that decode to an instruction with a fatal decode error. -/
theorem fatalCause_decode_ne_none_iff (w : Word) :
    fatalCause (decode w) ≠ none ↔ fOpcode w = 0x8 ∨ fOpcode w = 0xD ∨
      (fOpcode w = 0xF ∧ (w.toNat % 256 < 0x20 ∨ 0x25 < w.toNat % 256)) := by
  simp only [← BitVec.toNat_inj]
  unfold decode
  split
  -- BR with NOP and JMP with RET, the two forms of ADD, JSR and AND, TRAP; then the opcodes of one instruction.
  case h_1 | h_13 => simp [*]
  case h_2 | h_5 | h_6 => split <;> simp [fatalCause, *]
  case h_16 =>
    have hop : (fOpcode w).toNat = 0xF := by
      simp only [imp_false] at *
      have hlt : (fOpcode w).toNat < 16 := (fOpcode w).isLt
      omega
    simp [hop, fatalCause_decodeTrap_ne_none_iff, fVect8_toNat]
  all_goals simp [fatalCause, *]

/-- Settles O44: from no fault the fault recorded is the word's own (`exec_fault`), and
`fatalCause_decode_ne_none_iff` says which words have one. -/
theorem illegalWordsAreExactlyTheListedOnes : Obligations.IllegalWordsAreExactlyTheListedOnes := by
  intro w s t hs h
  rw [exec_fault h, hs, Option.or_none]
  exact fatalCause_decode_ne_none_iff w

end Sys2Proof.Machine
end

section
/-! ADD, AND, NOT and the flag update that ends them (spec/40_alu.md), and the obligations about them. -/

namespace Sys2Proof.Machine

/-- Settles O4: `setcc` writes the one field `cond`, and `flagOf_eq_signCond` reads its flag in the words of R120. -/
theorem setccReflectsTheRegister : Obligations.SetccReflectsTheRegister := fun i s => by
  rw [setcc, flagOf_eq_signCond]

/-! ### What the instructions write, through `writeDest` -/

theorem exec_addReg (dr sr1 sr2 : Reg) (s : State) :
    exec (.addReg dr sr1 sr2) s = .next (writeDest dr (s.reg sr1 + s.reg sr2) s) := rfl

theorem exec_addImm (dr sr1 : Reg) (imm5 : BitVec 5) (s : State) :
    exec (.addImm dr sr1 imm5) s = .next (writeDest dr (s.reg sr1 + sext imm5) s) := rfl

theorem exec_andReg (dr sr1 sr2 : Reg) (s : State) :
    exec (.andReg dr sr1 sr2) s = .next (writeDest dr (s.reg sr1 &&& s.reg sr2) s) := rfl

theorem exec_andImm (dr sr1 : Reg) (imm5 : BitVec 5) (s : State) :
    exec (.andImm dr sr1 imm5) s = .next (writeDest dr (s.reg sr1 &&& sext imm5) s) := rfl

theorem exec_not (dr sr : Reg) (s : State) : exec (.not dr sr) s = .next (writeDest dr (~~~ s.reg sr) s) := rfl

/-! ### ADD, AND, NOT -/

/-- Settles O6: a sum of words is the sum of their numbers mod 2^16 (`ofNat_toNat_add`). -/
theorem addWrapsAndSetsFlags : Obligations.AddWrapsAndSetsFlags := fun dr sr1 s => by
  constructor
  · intro sr2
    rw [exec_addReg, writeDest_eq, ofNat_toNat_add]
  · intro imm5
    rw [exec_addImm, writeDest_eq, ofNat_toNat_add]

/-- Settles O7: the word written is the AND of the operands, which `BitVec.getLsbD_and` reads bit by bit. -/
theorem andIsBitwiseAndSetsFlags : Obligations.AndIsBitwiseAndSetsFlags := fun dr sr1 s => by
  constructor
  · intro sr2
    refine ⟨s.reg sr1 &&& s.reg sr2, fun _ _ => BitVec.getLsbD_and, ?_⟩
    rw [exec_andReg, writeDest_eq]
  · intro imm5
    refine ⟨s.reg sr1 &&& sext imm5, fun _ _ => BitVec.getLsbD_and, ?_⟩
    rw [exec_andImm, writeDest_eq]

/-- Settles O8: the word written is the complement of x[SR], whose number `BitVec.toNat_not` gives. -/
theorem notComplementsAndSetsFlags : Obligations.NotComplementsAndSetsFlags := fun dr sr s => by
  refine ⟨~~~ s.reg sr, BitVec.toNat_not, ?_⟩
  rw [exec_not, writeDest_eq]

/-! ### Sign extension of an extended value, and the two copies -/

/-- R9: sign extension keeps the bits of the field. -/
theorem extractLsb'_sext {n : Nat} (hn : n ≤ 16) (v : BitVec n) : (sext v).extractLsb' 0 n = v := by
  ext k hk
  have hk16 : k < 16 := by omega
  simp [sext, BitVec.getElem_signExtend, hk, hk16]

/-- R125 for a field of any width that fits in a word. -/
theorem sext_extractLsb'_sext {n : Nat} (hn : n ≤ 16) (v : BitVec n) : sext ((sext v).extractLsb' 0 n) = sext v := by
  rw [extractLsb'_sext hn]

theorem sext_zero {n : Nat} : sext (0 : BitVec n) = 0 := by
  have h : (0 : BitVec n).msb = false := BitVec.msb_zero
  rw [sext, BitVec.signExtend_eq_setWidth_of_msb_false h]
  exact BitVec.setWidth_zero 16 n

/-- Settles O9: the extensions are instances of `sext_extractLsb'_sext`; x + 0 and x AND x are x. -/
theorem extensionIdempotentAndCopies : Obligations.ExtensionIdempotentAndCopies := by
  refine ⟨sext_extractLsb'_sext (by decide), sext_extractLsb'_sext (by decide), sext_extractLsb'_sext (by decide),
    sext_extractLsb'_sext (by decide), ?addCopies, ?andCopies⟩
  case addCopies =>
    intro dr sr s
    rw [exec_addImm, writeDest_eq, sext_zero, add_zero]
  case andCopies =>
    intro dr sr s
    rw [exec_andReg, writeDest_eq, BitVec.and_self]

end Sys2Proof.Machine
end

section
/-! BR, JMP and RET, JSR (spec/41_control.md), and the obligations about them. -/

namespace Sys2Proof.Machine

/-- R27, R141: the mask of BR selects the current flag; with one-hot flags the AND is nonzero through that flag's bit alone. -/
theorem branchTaken_iff (n z p : Bool) (c : Cond) :
    branchTaken n z p c = true ↔ (n = true ∧ c = .n) ∨ (z = true ∧ c = .z) ∨ (p = true ∧ c = .p) := by
  cases c with
  | n | z | p => revert n z p; decide

/-! ### The pc-relative targets as numbers mod 2^16 -/

theorem eaPc9_eq_ofNat (off9 : BitVec 9) (s : State) :
    eaPc9 off9 s = BitVec.ofNat 16 (s.pc.toNat + (sext off9).toNat) :=
  (ofNat_toNat_add s.pc (sext off9)).symm

theorem eaPc11_eq_ofNat (off11 : BitVec 11) (s : State) :
    eaPc11 off11 s = BitVec.ofNat 16 (s.pc.toNat + (sext off11).toNat) :=
  (ofNat_toNat_add s.pc (sext off11)).symm

/-! ### What the instructions do, through `setPc` and `setReg` -/

theorem exec_br (n z p : Bool) (off9 : BitVec 9) (s : State) :
    exec (.br n z p off9) s = .next (if branchTaken n z p s.cond then s.setPc (eaPc9 off9 s) else s) := rfl

theorem exec_jmp (base : Reg) (s : State) : exec (.jmp base) s = .next (s.setPc (s.reg base)) := rfl

theorem exec_ret (s : State) : exec .ret s = exec (.jmp .r7) s := rfl

theorem exec_jsr (off11 : BitVec 11) (s : State) :
    exec (.jsr off11) s = .next ((s.setReg .r7 s.pc).setPc (eaPc11 off11 s)) := rfl

/-! ### The obligations -/

/-- Settles O10: `branchTaken_iff` reads the test as the selected flag, `eaPc9_eq_ofNat` the target as a number. -/
theorem brBranchesIffFlagSelected : Obligations.BrBranchesIffFlagSelected := fun n z p off9 s => by
  simp only [exec_br, branchTaken_iff, eaPc9_eq_ofNat, State.setPc]

/-- Settles O11: RET is JMP R7 (R144), and JMP writes the one field `pc`. -/
theorem jmpAndRetLoadThePc : Obligations.JmpAndRetLoadThePc := fun s => by
  constructor
  · intro base
    rw [exec_jmp, State.setPc]
  · rw [exec_ret, exec_jmp, State.setPc]

/-- Settles O12: the link and the base of the target are the same pc, since the target is computed before R7 is written. -/
theorem jsrLinksAndJumps : Obligations.JsrLinksAndJumps := fun off11 s => by
  rw [exec_jsr, eaPc11_eq_ofNat, State.setPc, State.setReg]

end Sys2Proof.Machine
end

section
/-! LD, LDI, LDR, LEA, ST, STI, STR (spec/42_load_store.md), and the obligations about them. -/

namespace Sys2Proof.Machine

/-- R160: the base plus offset address as a number mod 2^16. -/
theorem eaBase6_eq_ofNat (base : Reg) (off6 : BitVec 6) (s : State) :
    eaBase6 base off6 s = BitVec.ofNat 16 ((s.reg base).toNat + (sext off6).toNat) :=
  (ofNat_toNat_add (s.reg base) (sext off6)).symm

/-! ### What the instructions do, through `loadInto`, `writeDest` and `memWrite` -/

theorem exec_ld (dr : Reg) (off9 : BitVec 9) (s : State) :
    exec (.ld dr off9) s = .next (loadInto dr (eaPc9 off9 s) s) := rfl

theorem exec_ldr (dr base : Reg) (off6 : BitVec 6) (s : State) :
    exec (.ldr dr base off6) s = .next (loadInto dr (eaBase6 base off6 s) s) := rfl

theorem exec_ldi (dr : Reg) (off9 : BitVec 9) (s : State) :
    exec (.ldi dr off9) s = .next (loadInto dr (memRead (eaPc9 off9 s) s).1 (memRead (eaPc9 off9 s) s).2) := rfl

theorem exec_lea (dr : Reg) (off9 : BitVec 9) (s : State) :
    exec (.lea dr off9) s = .next (writeDest dr (eaPc9 off9 s) s) := rfl

theorem exec_st (sr : Reg) (off9 : BitVec 9) (s : State) :
    exec (.st sr off9) s = .next (memWrite (eaPc9 off9 s) (s.reg sr) s) := rfl

theorem exec_str (sr base : Reg) (off6 : BitVec 6) (s : State) :
    exec (.str sr base off6) s = .next (memWrite (eaBase6 base off6 s) (s.reg sr) s) := rfl

theorem exec_sti (sr : Reg) (off9 : BitVec 9) (s : State) :
    exec (.sti sr off9) s =
      .next (memWrite (memRead (eaPc9 off9 s) s).1 (s.reg sr) (memRead (eaPc9 off9 s) s).2) := rfl

/-! ### The two shared shapes: a load's whole next state, a store's one cell -/

/-- `memRead_regs` for a read whose word and next state have names. -/
theorem regs_eq_of_memRead {ea w : Word} {s t : State} (h : memRead ea s = (w, t)) : t.regs = s.regs := by
  rw [← memRead_regs ea s, h]

/-- A load, whole: the read with its side effect, which leaves the registers alone, then the write of DR and the flags. -/
theorem loadInto_eq (dr : Reg) (ea : Word) (s : State) :
    loadInto dr ea s = { (memRead ea s).2 with
      regs := s.regs.set dr (memRead ea s).1
      cond := signCond (memRead ea s).1 } := by
  rw [loadInto, writeDest_eq, memRead_regs]

/-- A store, whole, in the form the statements about ST, STR and STI share: one cell and no other field (R56). -/
theorem next_memWrite_stores_one_cell (a v : Word) (s : State) :
    ∃ t : State, (.next (memWrite a v s) : Host.Outcome State Fault Refusal) = .next t ∧
      t = { s with mem := t.mem } ∧ ∀ b, t.mem.read b = if b = a then v else s.mem.read b :=
  ⟨memWrite a v s, rfl, memWrite_eq_with_mem a v s, fun b => read_memWrite a b v s⟩

/-! ### The obligations -/

/-- Settles O23: each is one `memWrite` at its effective address. -/
theorem stAndStrStoreOneWord : Obligations.StAndStrStoreOneWord := by
  constructor
  · intro sr off9 s
    rw [exec_st, eaPc9_eq_ofNat]
    exact next_memWrite_stores_one_cell _ _ s
  · intro sr base off6 s
    rw [exec_str, eaBase6_eq_ofNat]
    exact next_memWrite_stores_one_cell _ _ s

/-- Settles O24: the store goes to the pointer read and starts from the state after that read. -/
theorem stiStoresThroughThePointer : Obligations.StiStoresThroughThePointer := fun sr off9 s s1 a hptr => by
  rw [exec_sti, eaPc9_eq_ofNat, hptr]
  exact next_memWrite_stores_one_cell a (s.reg sr) s1

/-- Settles O18: the load of `loadInto_eq` at the pc-relative address. -/
theorem ldLoadsPcRelative : Obligations.LdLoadsPcRelative := fun dr off9 s => by
  rw [exec_ld, eaPc9_eq_ofNat, loadInto_eq]

/-- Settles O19: the load of `loadInto_eq` at an address taken from the registers before the write of DR. -/
theorem ldrLoadsBasePlusOffset : Obligations.LdrLoadsBasePlusOffset := fun dr base off6 s => by
  rw [exec_ldr, eaBase6_eq_ofNat, loadInto_eq]

/-- Settles O20: the load of `loadInto_eq` from the state after the pointer read, whose registers are still those of `s`. -/
theorem ldiReadsPointerThenValue : Obligations.LdiReadsPointerThenValue := fun dr off9 s s1 s2 a v hptr hval => by
  rw [exec_ldi, eaPc9_eq_ofNat, hptr, loadInto_eq, hval, regs_eq_of_memRead hptr]

/-- Settles O22: the address itself goes to DR, with no `memRead`. -/
theorem leaGivesTheAddressAndSetsFlags : Obligations.LeaGivesTheAddressAndSetsFlags := fun dr off9 s => by
  rw [exec_lea, eaPc9_eq_ofNat, writeDest_eq]

end Sys2Proof.Machine
end

section
/-! TRAP and the console routines (spec/43_trap.md), and the obligations about them. -/

namespace Sys2Proof.Machine

theorem exec_trap (v : Byte) (s : State) : exec (.trap v) s = trapDispatch v s := rfl

/-- R198: of the dispatcher's cases an unknown vector leaves only the last. -/
theorem trapDispatch_of_knownVector_eq_false {v : Byte} (hv : knownVector v = false) (s : State) :
    trapDispatch v s = .next (raiseFatal (.unknownTrapVector v) s) := by
  rcases trapDispatch_cases v s with
    ⟨rfl, -⟩ | ⟨rfl, -⟩ | ⟨rfl, -⟩ | ⟨rfl, -⟩ | ⟨rfl, -⟩ | ⟨rfl, -⟩ | ⟨-, h⟩
  case inr.inr.inr.inr.inr.inr => exact h
  all_goals exact absurd hv (by decide)

/-- Settles O36: a vector outside the range is unknown (`knownVector_eq_false_iff`), and the fatal entry writes `run` and
`fault` alone. -/
theorem unknownVectorIsFatal : Obligations.UnknownVectorIsFatal := fun v s hv => by
  rw [exec_trap, trapDispatch_of_knownVector_eq_false ((knownVector_eq_false_iff v).mpr hv), raiseFatal_eq]

end Sys2Proof.Machine
end

section
/-! RTI and RES (spec/44_reserved.md), and the obligation about them. -/

namespace Sys2Proof.Machine

/-! ### What the instructions do, through `raiseFatal` -/

theorem exec_rti (s : State) : exec .rti s = .next (raiseFatal (.reservedOpcode .rti) s) := rfl

theorem exec_res (s : State) : exec .res s = .next (raiseFatal (.reservedOpcode .res) s) := rfl

/-! ### The obligation -/

/-- Settles O37: each is the fatal entry with its own cause, and `raiseFatal_eq` says that it writes `run` and `fault` alone. -/
theorem reservedOpcodesAreFatal : Obligations.ReservedOpcodesAreFatal := fun s => by
  constructor
  · rw [exec_rti, raiseFatal_eq]
  · rw [exec_res, raiseFatal_eq]

end Sys2Proof.Machine
end

section
/-! What an instruction can do to the state, said once over all constructors; the frames, the invariant and the run
statements are read off it. -/

namespace Sys2Proof.Machine

namespace StringEffect

variable {s t : State}

theorem regs_eq (h : StringEffect s t) : t.regs = s.regs := by obtain ⟨m, pos, n, cs, rfl, -⟩ := h; rfl

theorem pc_eq (h : StringEffect s t) : t.pc = s.pc := by obtain ⟨m, pos, n, cs, rfl, -⟩ := h; rfl

theorem run_eq (h : StringEffect s t) : t.run = s.run := by obtain ⟨m, pos, n, cs, rfl, -⟩ := h; rfl

theorem flushed_eq (h : StringEffect s t) : t.flushed = s.flushed := by obtain ⟨m, pos, n, cs, rfl, -⟩ := h; rfl

/-- The reads of a string routine touch no cell but the keyboard's (R54). -/
theorem read_eq (h : StringEffect s t) {b : Word} (hs : b ≠ Config.kbsrAddr) (hd : b ≠ Config.kbdrAddr) :
    t.mem.read b = s.mem.read b := by
  obtain ⟨m, pos, n, cs, rfl, hm, -⟩ := h
  exact hm b hs hd

end StringEffect

/-! ### A console read -/

/-- What GETC and IN can change after the prompt, as one form: R0, the input position by at most one within the input, the
waiting read, and an echo at the end of the output, which GETC does not write (R192, R195). -/
def CharEffect (which : BlockedRead) (s t : State) : Prop :=
  ∃ (regs : RegFile) (pos : Nat) (w : Option BlockedRead) (cs : List Byte),
    t = { s with regs := regs, inPos := pos, wait := w, output := s.output ++ cs } ∧
    (∀ r, r ≠ .r0 → regs.get r = s.regs.get r) ∧ (which = .getc → cs = []) ∧
    s.inPos ≤ pos ∧ (s.inputTail = .ended → s.inPos ≤ s.consoleInput.length → pos ≤ s.consoleInput.length)

theorem CharEffect.of_takeChar (which : BlockedRead) {c : Byte} {s : State} (hc : nextChar s = some c) :
    CharEffect which s (takeChar which c s) := by
  have hreg (r : Reg) (hr : r ≠ .r0) : (s.regs.set .r0 (zext8 c)).get r = s.regs.get r := RegFile.get_set_ne _ _ hr
  have hpos (he : s.inputTail = .ended) (_ : s.inPos ≤ s.consoleInput.length) :
      s.inPos + 1 ≤ s.consoleInput.length := nextChar_lt hc he
  cases which with
  | getc =>
    refine ⟨_, _, none, [], ?_, hreg, fun _ => rfl, Nat.le_succ _, hpos⟩
    simp [takeChar, finishRead, State.setReg]
  | in_ => exact ⟨_, _, none, [c], rfl, hreg, nofun, Nat.le_succ _, hpos⟩

theorem CharEffect.of_consoleGet (which : BlockedRead) (s : State) : CharEffect which s (consoleGet which s) := by
  rcases consoleGet_cases which s with ⟨c, hc, h⟩ | ⟨-, h⟩ <;> rw [h]
  · exact .of_takeChar which hc
  · exact ⟨s.regs, s.inPos, some which, [], by simp, fun _ _ => rfl, fun _ => rfl, Nat.le_refl _, fun _ h => h⟩

namespace CharEffect

variable {which : BlockedRead} {s t : State}

theorem reg_eq (h : CharEffect which s t) {r : Reg} (hr : r ≠ .r0) : t.reg r = s.reg r := by
  obtain ⟨regs, pos, w, cs, rfl, hregs, -⟩ := h
  exact hregs r hr

theorem pc_eq (h : CharEffect which s t) : t.pc = s.pc := by obtain ⟨regs, pos, w, cs, rfl, -⟩ := h; rfl

theorem mem_eq (h : CharEffect which s t) : t.mem = s.mem := by obtain ⟨regs, pos, w, cs, rfl, -⟩ := h; rfl

theorem flushed_eq (h : CharEffect which s t) : t.flushed = s.flushed := by
  obtain ⟨regs, pos, w, cs, rfl, -⟩ := h
  rfl

theorem run_eq (h : CharEffect which s t) : t.run = s.run := by obtain ⟨regs, pos, w, cs, rfl, -⟩ := h; rfl

theorem fault_eq (h : CharEffect which s t) : t.fault = s.fault := by obtain ⟨regs, pos, w, cs, rfl, -⟩ := h; rfl

/-- GETC has no echo (R192). -/
theorem output_eq (h : CharEffect .getc s t) : t.output = s.output := by
  obtain ⟨regs, pos, w, cs, rfl, -, hcs, -⟩ := h
  simp [hcs rfl]

end CharEffect

/-! ### An instruction -/

theorem exec_br_never (off9 : BitVec 9) (s : State) : exec (.br false false false off9) s = .next s := by
  simp [exec_br, branchTaken_iff]

theorem exec_nop (off9 : BitVec 9) (s : State) : exec (.nop off9) s = .next s := exec_br_never off9 s

/-- Everything the execution of `i` in `s` can do, by the shared operation it ends in, with what the spec's tables say of an
instruction that does it. -/
inductive ExecEffect (i : Instr) (s : State) : State → Prop where
  | unchanged : ExecEffect i s s
  | jump (hpc : writesPc i = true) (a : Word) : ExecEffect i s (s.setPc a)
  | link (hpc : writesPc i = true) (hd : destReg i = some .r7) (a : Word) :
      ExecEffect i s ((s.setReg .r7 s.pc).setPc a)
  | write {dr : Reg} (hd : destReg i = some dr) (v : Word) : ExecEffect i s (writeDest dr v s)
  | load {dr : Reg} {u : State} (hd : destReg i = some dr) (ha : accessesData i = true) (hu : StringEffect s u)
      (ho : u.output = s.output) (v : Word) : ExecEffect i s (writeDest dr v u)
  | store {a : Word} {u : State} (hst : storeAddr s i = some a) (ha : accessesData i = true) (hu : StringEffect s u)
      (ho : u.output = s.output) (v : Word) : ExecEffect i s (memWrite a v u)
  | fatal {cause : FatalCause} (hc : fatalCause i = some cause) : ExecEffect i s (raiseFatal cause s)
  | getc {t : State} (hd : destReg i = some .r0) (ht : CharEffect .getc s t) : ExecEffect i s t
  | prompt {t : State} (hd : destReg i = some .r0) (hw : writesOutput i = true)
      (ht : CharEffect .in_ (consolePutAll Config.inPrompt s) t) : ExecEffect i s t
  | print {u : State} (hw : writesOutput i = true) (hu : StringEffect s u)
      (hm : accessesData i = true ∨ u.mem = s.mem) : ExecEffect i s (consoleFlush u)
  | halt (hi : i = .halt ∨ i = .trap 0x25) (hw : writesOutput i = true) :
      ExecEffect i s { consoleFlush (consolePutAll Config.haltNotice (consoleFlush s)) with run := .halted }

/-- An instruction that executes as `TRAP v`, when the spec's tables say of it what they say of `TRAP v`, does what
`TRAP v` does. -/
theorem ExecEffect.of_trapDispatch {i : Instr} {v : Byte} {s t : State} (hd : destReg i = destReg (.trap v))
    (ha : accessesData i = accessesData (.trap v)) (hw : writesOutput i = writesOutput (.trap v))
    (hc : fatalCause i = fatalCause (.trap v)) (hi : v = 0x25 → i = .halt ∨ i = .trap 0x25)
    (h : trapDispatch v s = .next t) : ExecEffect i s t := by
  rcases trapDispatch_cases v s with
      ⟨rfl, h'⟩ | ⟨rfl, h'⟩ | ⟨rfl, h'⟩ | ⟨rfl, h'⟩ | ⟨rfl, h'⟩ | ⟨rfl, h'⟩ | ⟨hv, h'⟩ <;>
    rw [h'] at h
  · cases h; exact .getc hd (.of_consoleGet _ _)
  · cases h; exact .print hw ((StringEffect.refl s).put _) (.inr rfl)
  · rcases trapPuts_cases s with ⟨u, -, hu, h'⟩ | ⟨-, h'⟩ <;> rw [h'] at h <;> cases h
    exact .print hw hu (.inl ha)
  · cases h; exact .prompt hd hw (.of_consoleGet _ _)
  · rcases trapPutsp_cases s with ⟨u, -, hu, h'⟩ | ⟨-, h'⟩ <;> rw [h'] at h <;> cases h
    exact .print hw hu (.inl ha)
  · cases h; exact .halt (hi rfl) hw
  · cases h; exact .fatal (hc.trans (by simp [fatalCause, hv]))

/-- The inversion lemma of `exec`. -/
theorem exec_effect {i : Instr} {s t : State} (h : exec i s = .next t) : ExecEffect i s t := by
  cases i with
  | nop => rw [exec_nop] at h; cases h; exact .unchanged
  | br =>
    rw [exec_br] at h
    split at h <;> cases h
    · exact .jump rfl _
    · exact .unchanged
  | jmp | ret => cases h; exact .jump rfl _
  | jsr | jsrr => cases h; exact .link rfl rfl _
  | addReg | addImm | andReg | andImm | not | lea => cases h; exact .write rfl _
  | ld | ldr => cases h; exact .load rfl rfl (.of_memRead _ _) (memRead_output _ _) _
  | ldi =>
    cases h
    exact .load rfl rfl (.trans (.of_memRead _ _) (.of_memRead _ _)) ((memRead_output _ _).trans (memRead_output _ _)) _
  | st | str => cases h; exact .store rfl rfl (.refl s) rfl _
  | sti => cases h; exact .store rfl rfl (.of_memRead _ _) (memRead_output _ _) _
  | rti | res => cases h; exact .fatal rfl
  | trap v => exact .of_trapDispatch (v := v) rfl rfl rfl rfl (fun hv => .inr (congrArg _ hv)) h
  | getc => exact .of_trapDispatch (v := 0x20) rfl rfl rfl rfl nofun h
  | out => exact .of_trapDispatch (v := 0x21) rfl rfl rfl rfl nofun h
  | puts => exact .of_trapDispatch (v := 0x22) rfl rfl rfl rfl nofun h
  | in_ => exact .of_trapDispatch (v := 0x23) rfl rfl rfl rfl nofun h
  | putsp => exact .of_trapDispatch (v := 0x24) rfl rfl rfl rfl nofun h
  | halt => exact .of_trapDispatch (v := 0x25) rfl rfl rfl rfl (fun _ => .inl rfl) h

end Sys2Proof.Machine
end

section
/-! What every step keeps and how a run advances (spec/10_state.md section 1), and the obligations about steps and runs. -/

namespace Sys2Proof.Machine

/-! ### Advancing -/

/-- The clauses of the invariant about the data: memory in canonical form and the two marks in range. -/
structure State.DataInv (s : State) : Prop where
  mem_wf : s.mem.wf = true
  flushed_le : s.flushed ≤ s.output.length
  inPos_le : s.inputTail = .ended → s.inPos ≤ s.consoleInput.length

theorem State.Inv.dataInv {s : State} (h : s.Inv) : s.DataInv := ⟨h.mem_wf, h.flushed_le, h.inPos_le⟩

/-- What every step does to the console and keeps of the data (R34, D15, D23). -/
structure Advances (s t : State) : Prop where
  output : ∃ cs, t.output = s.output ++ cs
  inPos : s.inPos ≤ t.inPos
  consoleInput : t.consoleInput = s.consoleInput
  inputTail : t.inputTail = s.inputTail
  dataInv : s.DataInv → t.DataInv

namespace Advances

variable {s t u : State}

theorem refl (s : State) : Advances s s := ⟨⟨[], by simp⟩, Nat.le_refl _, rfl, rfl, id⟩

theorem trans (h : Advances s t) (h' : Advances t u) : Advances s u where
  output := by
    obtain ⟨cs, hcs⟩ := h.output
    obtain ⟨cs', hcs'⟩ := h'.output
    exact ⟨cs ++ cs', by rw [hcs', hcs, List.append_assoc]⟩
  inPos := h.inPos.trans h'.inPos
  consoleInput := h'.consoleInput.trans h.consoleInput
  inputTail := h'.inputTail.trans h.inputTail
  dataInv := h'.dataInv ∘ h.dataInv

/-- A state that differs in none of the fields concerned. -/
theorem of_eq (hm : t.mem = s.mem) (hc : t.consoleInput = s.consoleInput) (hi : t.inputTail = s.inputTail)
    (hp : t.inPos = s.inPos) (ho : t.output = s.output) (hf : t.flushed = s.flushed) : Advances s t where
  output := ⟨[], by simp [ho]⟩
  inPos := Nat.le_of_eq hp.symm
  consoleInput := hc
  inputTail := hi
  dataInv h := ⟨hm ▸ h.mem_wf, by rw [hf, ho]; exact h.flushed_le, by rw [hi, hp, hc]; exact h.inPos_le⟩

theorem of_stringEffect (h : StringEffect s t) : Advances s t := by
  obtain ⟨m, pos, n, cs, rfl, -, hwf, hle, hin⟩ := h
  refine ⟨⟨cs, rfl⟩, hle, rfl, rfl, fun hd => ⟨hwf hd.mem_wf, ?_, fun he => hin he (hd.inPos_le he)⟩⟩
  exact hd.flushed_le.trans (by simp)

theorem of_charEffect {which : BlockedRead} (h : CharEffect which s t) : Advances s t := by
  obtain ⟨regs, pos, w, cs, rfl, -, -, hle, hin⟩ := h
  refine ⟨⟨cs, rfl⟩, hle, rfl, rfl, fun hd => ⟨hd.mem_wf, ?_, fun he => hin he (hd.inPos_le he)⟩⟩
  exact hd.flushed_le.trans (by simp)

theorem putAll (cs : List Byte) (s : State) : Advances s (consolePutAll cs s) :=
  ⟨⟨cs, rfl⟩, Nat.le_refl _, rfl, rfl, fun hd => ⟨hd.mem_wf, hd.flushed_le.trans (by simp), hd.inPos_le⟩⟩

theorem flush (s : State) : Advances s (consoleFlush s) :=
  ⟨⟨[], by simp⟩, Nat.le_refl _, rfl, rfl, fun hd => ⟨hd.mem_wf, Nat.le_refl _, hd.inPos_le⟩⟩

theorem store (a v : Word) (s : State) : Advances s (memWrite a v s) :=
  ⟨⟨[], by simp⟩, Nat.le_refl _, rfl, rfl, fun hd => ⟨Memory.wf_write a v hd.mem_wf, hd.flushed_le, hd.inPos_le⟩⟩

theorem of_execEffect {i : Instr} (h : ExecEffect i s t) : Advances s t := by
  cases h with
  | unchanged => exact refl s
  | jump | link | write | fatal => exact of_eq rfl rfl rfl rfl rfl rfl
  | load _ _ hu => exact (of_stringEffect hu).trans (of_eq rfl rfl rfl rfl rfl rfl)
  | store _ _ hu => exact (of_stringEffect hu).trans (store _ _ _)
  | getc _ ht => exact of_charEffect ht
  | prompt _ _ ht => exact (putAll _ s).trans (of_charEffect ht)
  | print _ hu => exact (of_stringEffect hu).trans (flush _)
  | halt =>
    exact (flush s).trans ((putAll Config.haltNotice _).trans ((flush _).trans (of_eq rfl rfl rfl rfl rfl rfl)))

theorem of_fetch (s : State) : Advances s (fetch s).2 :=
  (of_stringEffect (.of_memRead s.pc s)).trans (of_eq rfl rfl rfl rfl rfl rfl)

end Advances

theorem step_advances {s t : State} (h : step s = .next t) : Advances s t := by
  obtain ⟨-, ⟨-, hexec⟩ | ⟨which, c, -, hc, rfl⟩⟩ := step_cases h
  · exact (Advances.of_fetch s).trans (.of_execEffect (exec_effect hexec))
  · exact .of_charEffect (.of_takeChar which hc)

/-! ### Stopping -/

@[simp] theorem fetch_run (s : State) : (fetch s).2.run = s.run := memRead_run s.pc s

@[simp] theorem fetch_fault (s : State) : (fetch s).2.fault = s.fault := memRead_fault s.pc s

@[simp] theorem fetch_wait (s : State) : (fetch s).2.wait = s.wait := memRead_wait s.pc s

@[simp] theorem takeChar_run (which : BlockedRead) (c : Byte) (s : State) : (takeChar which c s).run = s.run := by
  cases which <;> rfl

@[simp] theorem takeChar_wait (which : BlockedRead) (c : Byte) (s : State) : (takeChar which c s).wait = none := by
  cases which <;> rfl

/-- An instruction leaves `run` and `fault` alone, or it stops the loop and then no read is left waiting by it: it is HALT,
or it takes a fatal decode error (R30, R237). -/
theorem ExecEffect.runs_or_halts {i : Instr} {s t : State} (h : ExecEffect i s t) :
    (t.run = s.run ∧ t.fault = s.fault) ∨
    (t.run = .halted ∧ t.wait = s.wait ∧ (fatalCause i ≠ none ∨ i = .halt ∨ i = .trap 0x25)) := by
  cases h with
  | unchanged | jump | link | write => exact .inl ⟨rfl, rfl⟩
  | load _ _ hu | store _ _ hu | print _ hu => exact .inl ⟨hu.run_eq, hu.fault_eq⟩
  | getc _ ht | prompt _ _ ht => exact .inl ⟨ht.run_eq, ht.fault_eq⟩
  | fatal hc => exact .inr ⟨rfl, rfl, .inl (by simp [hc])⟩
  | halt hi => exact .inr ⟨rfl, rfl, .inr hi⟩

/-! ### The obligations about steps and runs -/

/-- Settles O51: the data by `step_advances`; that only HALTED has a fault and only RUNNING a waiting read, since the step began
RUNNING with no fault and either executed an instruction with no read waiting or ended the waiting read. -/
theorem everyStepKeepsTheInvariant : Obligations.EveryStepKeepsTheInvariant := fun s t hs h => by
  obtain ⟨hmem, hflushed, hpos⟩ := (step_advances h).dataInv hs.dataInv
  obtain ⟨hrun, hcase⟩ := step_cases h
  have hfault : s.fault = none := by_contra fun hf => by simp [hs.fault_halted hf] at hrun
  suffices hstop : (t.fault ≠ none → t.run = .halted) ∧ (t.wait ≠ none → t.run = .running) from
    ⟨hmem, hstop.1, hstop.2, hflushed, hpos⟩
  obtain ⟨hwait, hexec⟩ | ⟨which, c, -, -, rfl⟩ := hcase
  · obtain ⟨hr, hf⟩ | ⟨hr, hw, -⟩ := (exec_effect hexec).runs_or_halts
    · simp [hr, hf, hrun, hfault]
    · simp [hr, hw, hwait]
  · simp [hfault]

/-- Every run advances. -/
theorem Reaches.advances {s t : State} (h : Reaches s t) : Advances s t := by
  induction h with
  | refl => exact .refl s
  | step _ hs ih => exact ih.trans (step_advances hs)

/-- The invariant is kept along every run. -/
theorem Reaches.inv {s t : State} (h : Reaches s t) (hs : s.Inv) : t.Inv := by
  induction h with
  | refl => exact hs
  | step _ hstep ih => exact everyStepKeepsTheInvariant _ _ ih hstep

/-- Settles O52: `Reaches.advances`. -/
theorem runsOnlyAppendOutputAndConsumeInput : Obligations.RunsOnlyAppendOutputAndConsumeInput := fun s t h => by
  obtain ⟨hout, hpos, hinput, htail, -⟩ := h.advances
  exact ⟨hout, hpos, hinput, htail⟩

/-- Arriving characters keep the invariant: the listed input only gets longer. -/
theorem supplyInput_inv {s : State} (cs : List Byte) (h : s.Inv) : (supplyInput cs s).Inv where
  mem_wf := h.mem_wf
  fault_halted := h.fault_halted
  wait_running := h.wait_running
  flushed_le := h.flushed_le
  inPos_le he := (h.inPos_le he).trans (by simp)

/-- Settles O60: a step by `everyStepKeepsTheInvariant` and `step_advances`; an arrival extends the input of a state whose
input had ended, and changes nothing else. -/
theorem runsWithArrivalsKeepTheInvariant : Obligations.RunsWithArrivalsKeepTheInvariant := fun s t h => by
  induction h with
  | refl => exact ⟨id, ⟨[], by simp⟩, Nat.le_refl _, ⟨[], by simp⟩, rfl, fun _ => rfl⟩
  | step _ hstep ih =>
    obtain ⟨hinv, ⟨cs, hcs⟩, hpos, hinput, htail, hendless⟩ := ih
    obtain ⟨⟨cs', hcs'⟩, hpos', hinput', htail', -⟩ := step_advances hstep
    refine ⟨fun hs => everyStepKeepsTheInvariant _ _ (hinv hs) hstep, ⟨cs ++ cs', ?_⟩, hpos.trans hpos', ?_,
      htail'.trans htail, fun he => hinput'.trans (hendless he)⟩
    · rw [hcs', hcs, List.append_assoc]
    · rwa [hinput']
  | arrive _ hended cs ih =>
    obtain ⟨hinv, hout, hpos, ⟨cs', hcs'⟩, htail, -⟩ := ih
    refine ⟨supplyInput_inv cs ∘ hinv, hout, hpos, ⟨cs' ++ cs, ?_⟩, htail, fun he => absurd (htail ▸ hended) he⟩
    rw [supplyInput_consoleInput, hcs', List.append_assoc]

end Sys2Proof.Machine
end

section
/-! The encoding (spec/30_encoding.md): the fields of a word under masks, and the obligations about decoder and encoder. -/

namespace Sys2Proof.Machine

/-- Settles O54: the family `Laws.RoundTrip`, constructor by constructor. -/
theorem decodeOfEncodeIsIdentity : Obligations.DecodeOfEncodeIsIdentity
  | .br n z p off9 => Laws.RoundTrip.br n z p off9
  | .addReg dr sr1 sr2 => Laws.RoundTrip.addReg dr sr1 sr2
  | .addImm dr sr1 imm5 => Laws.RoundTrip.addImm dr sr1 imm5
  | .ld dr off9 => Laws.RoundTrip.ld dr off9
  | .st sr off9 => Laws.RoundTrip.st sr off9
  | .jsr off11 => Laws.RoundTrip.jsr off11
  | .jsrr base => Laws.RoundTrip.jsrr base
  | .andReg dr sr1 sr2 => Laws.RoundTrip.andReg dr sr1 sr2
  | .andImm dr sr1 imm5 => Laws.RoundTrip.andImm dr sr1 imm5
  | .ldr dr base off6 => Laws.RoundTrip.ldr dr base off6
  | .str sr base off6 => Laws.RoundTrip.str sr base off6
  | .rti => Laws.RoundTrip.rti
  | .not dr sr => Laws.RoundTrip.not dr sr
  | .ldi dr off9 => Laws.RoundTrip.ldi dr off9
  | .sti sr off9 => Laws.RoundTrip.sti sr off9
  | .jmp base => Laws.RoundTrip.jmp base
  | .res => Laws.RoundTrip.res
  | .lea dr off9 => Laws.RoundTrip.lea dr off9
  | .trap v => Laws.RoundTrip.trap v
  | .ret => Laws.RoundTrip.ret
  | .getc => Laws.RoundTrip.getc
  | .out => Laws.RoundTrip.out
  | .puts => Laws.RoundTrip.puts
  | .in_ => Laws.RoundTrip.in_
  | .putsp => Laws.RoundTrip.putsp
  | .halt => Laws.RoundTrip.halt
  | .nop off9 => Laws.RoundTrip.nop off9

/-! ### The row a word selects -/

/-- The mask of the `len` bits from bit `k` on. -/
def fieldMask (k len : Nat) : Word := (BitVec.allOnes len).setWidth 16 <<< k

/-- A word under the mask of one field keeps that field and no other bit. -/
theorem and_fieldMask (w : Word) (k len : Nat) : w &&& fieldMask k len = (w.extractLsb' k len).setWidth 16 <<< k := by
  ext i hi
  by_cases hk : i < k
  · simp [fieldMask, hk]
  · have hki : k + (i - k) = i := by omega
    by_cases hl : i - k < len <;> simp [fieldMask, hk, hl, hki, hi]

/-- The rows of the table whose mask covers the opcode alone. -/
theorem and_opcodeMask {w : Word} {op : Nat} (hop : (fOpcode w).toNat = op) :
    w &&& 0xF000 = BitVec.ofNat 16 op <<< 12 := by
  rw [← hop, BitVec.ofNat_toNat]
  exact and_fieldMask w 12 4

/-- The rows of the table whose mask covers the opcode and one field. -/
theorem and_opcodeMask_or_fieldMask {w : Word} {op f : Nat} (k len : Nat) (hop : (fOpcode w).toNat = op)
    (hf : (w.extractLsb' k len).toNat = f) :
    w &&& (0xF000 ||| fieldMask k len) = BitVec.ofNat 16 op <<< 12 ||| BitVec.ofNat 16 f <<< k := by
  rw [BitVec.and_or_distrib_left, and_opcodeMask hop, and_fieldMask, ← hf, BitVec.ofNat_toNat]

/-- A field of one bit. -/
theorem toNat_extractLsb'_one (w : Word) (k : Nat) : (w.extractLsb' k 1).toNat = (w.getLsbD k).toNat := by
  have h : w.extractLsb' k 1 = BitVec.ofBool (w.getLsbD k) := by
    ext i hi
    obtain rfl : i = 0 := by omega
    simp
  rw [h, BitVec.toNat_ofBool]

/-- The rows whose mask covers the opcode and the one bit that tells two forms apart. -/
theorem and_opcodeMask_or_bit {w : Word} {op : Nat} {b : Bool} (k : Nat) (hop : (fOpcode w).toNat = op)
    (hb : w.getLsbD k = b) :
    w &&& (0xF000 ||| fieldMask k 1) = BitVec.ofNat 16 op <<< 12 ||| BitVec.ofNat 16 b.toNat <<< k :=
  and_opcodeMask_or_fieldMask k 1 hop ((toNat_extractLsb'_one w k).trans (congrArg Bool.toNat hb))

/-- `ir[11:9]` of BR is cond3 (R85). -/
theorem extractLsb'_cond3 (w : Word) :
    w.extractLsb' 9 3 = cond3 (w.getLsbD 11) (w.getLsbD 10) (w.getLsbD 9) := by
  ext i hi
  obtain rfl | rfl | rfl : i = 0 ∨ i = 1 ∨ i = 2 := by omega
  all_goals simp

theorem code_regOf (b : BitVec 3) : (regOf b).code = b := by
  revert b
  decide

/-- A word is read as a canonical instruction whose row of the table the word selects (R94, R98). -/
def SelectsRow (w : Word) (i : Instr) : Prop := i.wf = true ∧ w &&& i.row.1 = i.row.2

theorem selectsRow_decodeBr {w : Word} (hop : (fOpcode w).toNat = 0x0) :
    SelectsRow w (decodeBr (w.getLsbD 11) (w.getLsbD 10) (w.getLsbD 9) (fOff9 w)) := by
  unfold decodeBr
  split
  case isTrue hc => exact ⟨hc, (and_opcodeMask hop :)⟩
  case isFalse hc =>
    have hcond : w.extractLsb' 9 3 = 0 := by
      simp only [Bool.or_eq_true, not_or, Bool.not_eq_true] at hc
      rw [extractLsb'_cond3, hc.1.1, hc.1.2, hc.2]
      rfl
    exact ⟨rfl, (and_opcodeMask_or_fieldMask 9 3 hop (congrArg _ hcond) :)⟩

theorem selectsRow_decodeJmp {w : Word} (hop : (fOpcode w).toNat = 0xC) : SelectsRow w (decodeJmp (fSr1 w)) := by
  unfold decodeJmp
  split
  case isTrue hb =>
    have hbase : w.extractLsb' 6 3 = Reg.code .r7 := (code_regOf _).symm.trans (congrArg Reg.code hb)
    exact ⟨rfl, (and_opcodeMask_or_fieldMask 6 3 hop (congrArg _ hbase) :)⟩
  case isFalse hb => exact ⟨by simpa [Instr.wf] using hb, (and_opcodeMask hop :)⟩

theorem selectsRow_decodeTrap {w : Word} (hop : (fOpcode w).toNat = 0xF) : SelectsRow w (decodeTrap (fVect8 w)) := by
  unfold decodeTrap
  split
  case h_7 =>
    refine ⟨?_, (and_opcodeMask hop :)⟩
    rw [Instr.wf, Bool.not_eq_true', knownVector_eq_false_iff]
    simp only [imp_false] at *
    omega
  all_goals next hv => exact ⟨rfl, (and_opcodeMask_or_fieldMask 0 8 hop hv :)⟩

/-- Settles O55: the decoder's case fixes the opcode, which is the whole mask of most rows; ADD, AND and JSR test one more bit,
and the alias rows one more field. -/
theorem everyWordSelectsItsRow : Obligations.EveryWordSelectsItsRow := fun w => by
  unfold decode
  split
  case h_1 hop => exact selectsRow_decodeBr hop
  case h_13 hop => exact selectsRow_decodeJmp hop
  case h_2 hop | h_6 hop =>
    split
    · next hb => exact ⟨rfl, (and_opcodeMask_or_bit 5 hop hb :)⟩
    · next hb => exact ⟨rfl, (and_opcodeMask_or_bit 5 hop (Bool.eq_false_of_not_eq_true hb) :)⟩
  case h_5 hop =>
    split
    · next hb => exact ⟨rfl, (and_opcodeMask_or_bit 11 hop hb :)⟩
    · next hb => exact ⟨rfl, (and_opcodeMask_or_bit 11 hop (Bool.eq_false_of_not_eq_true hb) :)⟩
  case h_16 =>
    have hlt : (fOpcode w).toNat < 16 := (fOpcode w).isLt
    refine selectsRow_decodeTrap ?_
    simp only [imp_false] at *
    omega
  all_goals next hop => exact ⟨rfl, (and_opcodeMask hop :)⟩

theorem decode_wf (w : Word) : (decode w).wf = true := (everyWordSelectsItsRow w).1

/-! ### The rows with ignored bits -/

/-- A row's mask that covers the opcode fixes it. -/
theorem fOpcode_of_and {w m v : Word} (hm : m.extractLsb' 12 4 = BitVec.allOnes 4) (h : w &&& m = v) :
    fOpcode w = v.extractLsb' 12 4 := by
  rw [← h, BitVec.extractLsb'_and, hm, BitVec.and_allOnes, fOpcode]

theorem getLsbD_of_and {w m v : Word} {k : Nat} (hm : m.getLsbD k = true) (h : w &&& m = v) :
    w.getLsbD k = v.getLsbD k := by
  rw [← h, BitVec.getLsbD_and, hm, Bool.and_true]

/-- Bits outside a field do not change it. -/
theorem extractLsb'_xor_and (w x : Word) {m : Word} {k len : Nat} (hm : m.extractLsb' k len = 0) :
    (w ^^^ (x &&& m)).extractLsb' k len = w.extractLsb' k len := by
  rw [BitVec.extractLsb'_xor, BitVec.extractLsb'_and, hm]
  simp

/-- Bits outside a row's mask do not change which row a word selects. -/
theorem xor_and_and (w x : Word) {m mask : Word} (hm : m &&& mask = 0) : (w ^^^ (x &&& m)) &&& mask = w &&& mask := by
  ext i hi
  have hbit : (m &&& mask)[i] = false := by simp [hm]
  rw [BitVec.getElem_and] at hbit
  cases hmask : mask[i] with
  | false => simp [hmask]
  | true => simp [hmask, show m[i] = false by simpa [hmask] using hbit]

section Rows

variable {w : Word}

theorem decode_of_addReg_row (h : w &&& 0xF020 = 0x1000) : decode w = .addReg (fDr w) (fSr1 w) (fSr2 w) := by
  have hop : fOpcode w = 0x1 := fOpcode_of_and rfl h
  have hbit : w.getLsbD 5 = false := getLsbD_of_and (by decide) h
  simp [decode, hop, hbit, -BitVec.getLsbD_eq_getElem]

theorem decode_of_andReg_row (h : w &&& 0xF020 = 0x5000) : decode w = .andReg (fDr w) (fSr1 w) (fSr2 w) := by
  have hop : fOpcode w = 0x5 := fOpcode_of_and rfl h
  have hbit : w.getLsbD 5 = false := getLsbD_of_and (by decide) h
  simp [decode, hop, hbit, -BitVec.getLsbD_eq_getElem]

theorem decode_of_jsrr_row (h : w &&& 0xF800 = 0x4000) : decode w = .jsrr (fSr1 w) := by
  have hop : fOpcode w = 0x4 := fOpcode_of_and rfl h
  have hbit : w.getLsbD 11 = false := getLsbD_of_and (by decide) h
  simp [decode, hop, hbit, -BitVec.getLsbD_eq_getElem]

theorem decode_of_not_row (h : w &&& 0xF000 = 0x9000) : decode w = .not (fDr w) (fSr1 w) := by
  have hop : fOpcode w = 0x9 := fOpcode_of_and rfl h
  simp [decode, hop]

theorem decode_of_jmp_row (h : w &&& 0xF000 = 0xC000) : decode w = decodeJmp (fSr1 w) := by
  have hop : fOpcode w = 0xC := fOpcode_of_and rfl h
  simp [decode, hop]

theorem decode_of_trap_row (h : w &&& 0xF000 = 0xF000) : decode w = decodeTrap (fVect8 w) := by
  have hop : fOpcode w = 0xF := fOpcode_of_and rfl h
  simp [decode, hop]

theorem decode_of_rti_row (h : w &&& 0xF000 = 0x8000) : decode w = .rti := by
  have hop : fOpcode w = 0x8 := fOpcode_of_and rfl h
  simp [decode, hop]

theorem decode_of_res_row (h : w &&& 0xF000 = 0xD000) : decode w = .res := by
  have hop : fOpcode w = 0xD := fOpcode_of_and rfl h
  simp [decode, hop]

end Rows

/-! ### The obligations about ignored bits and sample words -/

section Ignored

variable (w x : Word) {m : Word}

theorem fDr_xor_and (hm : m.extractLsb' 9 3 = 0) : fDr (w ^^^ (x &&& m)) = fDr w :=
  congrArg regOf (extractLsb'_xor_and w x hm)

theorem fSr1_xor_and (hm : m.extractLsb' 6 3 = 0) : fSr1 (w ^^^ (x &&& m)) = fSr1 w :=
  congrArg regOf (extractLsb'_xor_and w x hm)

theorem fSr2_xor_and (hm : m.extractLsb' 0 3 = 0) : fSr2 (w ^^^ (x &&& m)) = fSr2 w :=
  congrArg regOf (extractLsb'_xor_and w x hm)

theorem fVect8_xor_and (hm : m.extractLsb' 0 8 = 0) : fVect8 (w ^^^ (x &&& m)) = fVect8 w :=
  extractLsb'_xor_and w x hm

end Ignored

/-- Settles O56: the ignored bits lie outside the row's mask, so both words select the row, and outside its fields, so both give
the same operands. -/
theorem ignoredBitsDoNotMatter : Obligations.IgnoredBitsDoNotMatter := fun w x => by
  refine ⟨fun h => ?addAnd, fun h => ?not, fun h => ?jmp, fun h => ?jsrr, fun h => ?trap, fun h => ?reserved⟩
  case addAnd =>
    have hrow := xor_and_and w x (m := 0x0018) (mask := 0xF020) rfl
    obtain h | h := h
    · rw [decode_of_addReg_row h, decode_of_addReg_row (hrow.trans h), fDr_xor_and w x rfl, fSr1_xor_and w x rfl,
        fSr2_xor_and w x rfl]
    · rw [decode_of_andReg_row h, decode_of_andReg_row (hrow.trans h), fDr_xor_and w x rfl, fSr1_xor_and w x rfl,
        fSr2_xor_and w x rfl]
  case not =>
    rw [decode_of_not_row h, decode_of_not_row ((xor_and_and w x rfl).trans h), fDr_xor_and w x rfl, fSr1_xor_and w x rfl]
  case jmp => rw [decode_of_jmp_row h, decode_of_jmp_row ((xor_and_and w x rfl).trans h), fSr1_xor_and w x rfl]
  case jsrr => rw [decode_of_jsrr_row h, decode_of_jsrr_row ((xor_and_and w x rfl).trans h), fSr1_xor_and w x rfl]
  case trap => rw [decode_of_trap_row h, decode_of_trap_row ((xor_and_and w x rfl).trans h), fVect8_xor_and w x rfl]
  case reserved =>
    have hrow := xor_and_and w x (m := 0x0FFF) (mask := 0xF000) rfl
    obtain h | h := h
    · rw [decode_of_rti_row h, decode_of_rti_row (hrow.trans h)]
    · rw [decode_of_res_row h, decode_of_res_row (hrow.trans h)]

/-- Settles O57: the decoder evaluated on each word. -/
theorem sampleWordsDecode : Obligations.SampleWordsDecode := by
  unfold Obligations.SampleWordsDecode
  decide

end Sys2Proof.Machine
end

section
/-! The frames over all instructions (spec/10_state.md R22, R24; spec/20_memory.md R59), read off `exec_effect`. -/

namespace Sys2Proof.Machine

/-- Settles O40: of the effects only `link`, `write`, `load` and a console read write a register, the table's. -/
theorem onlyTheDestinationRegisterChanges : Obligations.OnlyTheDestinationRegisterChanges := fun i s t r h hr => by
  have hne {dr : Reg} (hd : destReg i = some dr) : r ≠ dr := fun e => hr (e ▸ hd)
  cases exec_effect h with
  | unchanged | jump | fatal | halt => rfl
  | link _ hd | write hd => exact RegFile.get_set_ne _ _ (hne hd)
  | load hd _ hu => exact (RegFile.get_set_ne _ _ (hne hd)).trans (congrArg (RegFile.get · r) hu.regs_eq)
  | store _ _ hu | print _ hu => exact congrArg (RegFile.get · r) hu.regs_eq
  | getc hd ht => exact ht.reg_eq (hne hd)
  | prompt hd _ ht => exact ht.reg_eq (hne hd)

/-- An instruction that accesses no data leaves memory as it is (R59). -/
theorem mem_eq_of_accessesData_eq_false {i : Instr} {s t : State} (h : exec i s = .next t)
    (hi : accessesData i = false) : t.mem = s.mem := by
  cases exec_effect h with
  | unchanged | jump | link | write | fatal | halt => rfl
  | load _ ha | store _ ha => exact absurd ha (by simp [hi])
  | getc _ ht => exact ht.mem_eq
  | prompt _ _ ht => exact ht.mem_eq
  | print _ _ hm => exact hm.resolve_left (by simp [hi])

/-- Every cell but the one stored to and the keyboard's reads as before (D10, D20). -/
theorem read_eq_of_ne_storeAddr {i : Instr} {s t : State} (h : exec i s = .next t) {b : Word}
    (hb : storeAddr s i ≠ some b) (hs : b ≠ Config.kbsrAddr) (hd : b ≠ Config.kbdrAddr) :
    t.mem.read b = s.mem.read b := by
  cases exec_effect h with
  | unchanged | jump | link | write | fatal | halt => rfl
  | load _ _ hu | print _ hu => exact hu.read_eq hs hd
  | store hst _ hu =>
    rw [memWrite_mem, Memory.read_write_ne _ _ fun e => hb (hst.trans (congrArg some e.symm))]
    exact hu.read_eq hs hd
  | getc _ ht => exact congrArg (Memory.read · b) ht.mem_eq
  | prompt _ _ ht => exact congrArg (Memory.read · b) ht.mem_eq

/-- Settles O41: `mem_eq_of_accessesData_eq_false` and `read_eq_of_ne_storeAddr`. -/
theorem onlyStoredAndKeyboardCellsChange : Obligations.OnlyStoredAndKeyboardCellsChange := fun _ _ _ h =>
  ⟨mem_eq_of_accessesData_eq_false h, fun _ => read_eq_of_ne_storeAddr h⟩

/-- Settles O42: of the effects only `jump` and `link` write the pc. -/
theorem pcStaysIncrementedExceptByControlTransfer : Obligations.PcStaysIncrementedExceptByControlTransfer :=
    fun i s t h hi => by
  cases exec_effect h with
  | unchanged | write | fatal | halt => rfl
  | jump hpc | link hpc => exact absurd hpc (by simp [hi])
  | load _ _ hu | store _ _ hu | print _ hu => exact hu.pc_eq
  | getc _ ht => exact ht.pc_eq
  | prompt _ _ ht => exact ht.pc_eq

/-- An instruction that writes no output leaves the output and the flush mark alone (R12). -/
theorem output_flushed_eq_of_writesOutput_eq_false {i : Instr} {s t : State} (h : exec i s = .next t)
    (hi : writesOutput i = false) : t.output = s.output ∧ t.flushed = s.flushed := by
  cases exec_effect h with
  | unchanged | jump | link | write | fatal => exact ⟨rfl, rfl⟩
  | load _ _ hu ho | store _ _ hu ho => exact ⟨ho, hu.flushed_eq⟩
  | getc _ ht => exact ⟨ht.output_eq, ht.flushed_eq⟩
  | prompt _ hw | print hw | halt _ hw => exact absurd hw (by simp [hi])

/-- Settles O43: the instructions that write no output by `output_flushed_eq_of_writesOutput_eq_false`; OUT, PUTS, PUTSP and
HALT end in a flush; IN is a console read, which does not flush. -/
theorem outputIsWrittenByFiveRoutinesOnly : Obligations.OutputIsWrittenByFiveRoutinesOnly := fun i s t h => by
  refine ⟨output_flushed_eq_of_writesOutput_eq_false h, fun hi => ?flushes, fun hi => ?in_⟩
  case flushes =>
    obtain rfl | rfl | rfl | rfl := hi
    · cases h; rfl
    · obtain ⟨u, -, -, h'⟩ | ⟨-, h'⟩ := trapPuts_cases s <;> cases h'.symm.trans h
      rfl
    · obtain ⟨u, -, -, h'⟩ | ⟨-, h'⟩ := trapPutsp_cases s <;> cases h'.symm.trans h
      rfl
    · cases h; rfl
  case in_ =>
    subst hi
    cases h
    exact (CharEffect.of_consoleGet .in_ _).flushed_eq

end Sys2Proof.Machine
end

section
/-! `MemRead` at KBSR, the step, and the end of a run (spec/20_memory.md, spec/45_execution_loop.md), and the obligations
about them. -/

namespace Sys2Proof.Machine

/-! ### The keyboard poll -/

/-- The character a poll finds in a state, if it finds one: the next one, when the environment shows it (R13, log entry 5). -/
def pollChar (s : State) : Option Byte := if Config.pollAvailable s.pollCount then s.inputAt s.inPos else none

theorem keyboardPoll_of_some {s : State} {c : Byte} (h : pollChar s = some c) :
    keyboardPoll s = { s with
      pollCount := s.pollCount + 1
      inPos := s.inPos + 1
      mem := (s.mem.write Config.kbsrAddr (s.mem.read Config.kbsrAddr ||| 0x8000)).write Config.kbdrAddr (zext8 c) } := by
  obtain ⟨ha, hc⟩ := (Option.ite_none_right_eq_some ..).mp h
  obtain ⟨c', hc', -, hpoll⟩ | ⟨hn | hn, -⟩ := keyboardPoll_cases s
  · cases hc'.symm.trans hc
    exact hpoll
  · cases hn.symm.trans hc
  · cases hn.symm.trans ha

theorem keyboardPoll_of_none {s : State} (h : pollChar s = none) :
    keyboardPoll s = { s with
      pollCount := s.pollCount + 1
      mem := s.mem.write Config.kbsrAddr (s.mem.read Config.kbsrAddr &&& 0x7FFF) } := by
  obtain ⟨c, hc, ha, -⟩ | ⟨-, hpoll⟩ := keyboardPoll_cases s
  · rw [pollChar, if_pos ha] at h
    cases h.symm.trans hc
  · exact hpoll

/-- Settles O16: elsewhere `memRead_of_ne`; at KBSR the poll, by what it finds, and the cells by read after write. -/
theorem readPollsOnlyAtKbsr : Obligations.ReadPollsOnlyAtKbsr := by
  refine ⟨fun a s h => memRead_of_ne s h, fun s => ?_⟩
  have hread := memRead_kbsr s
  split
  case h_1 c hc =>
    rw [keyboardPoll_of_some hc, Memory.read_write_ne _ _ kbsr_ne_kbdr, Memory.read_write_self] at hread
    refine ⟨_, hread, ?kbsr, ?kbdr, fun b hs hd => ?others⟩
    case kbsr => exact (Memory.read_write_ne _ _ kbsr_ne_kbdr).trans (Memory.read_write_self _ _ _)
    case kbdr => exact Memory.read_write_self _ _ _
    case others => exact (Memory.read_write_ne _ _ hd).trans (Memory.read_write_ne _ _ hs)
  case h_2 hc =>
    rw [keyboardPoll_of_none hc, Memory.read_write_self] at hread
    exact ⟨_, hread, Memory.read_write_self _ _ _, fun b hs => Memory.read_write_ne _ _ hs⟩

/-! ### The step of a running machine -/

/-- The incremented pc as a number mod 2^16 (R24). -/
theorem ofNat_toNat_succ (p : Word) : BitVec.ofNat 16 (p.toNat + 1) = p + 1 := ofNat_toNat_add p 1

theorem fetch_eq (s : State) : fetch s = ((memRead s.pc s).1, { (memRead s.pc s).2 with pc := s.pc + 1 }) := by
  rw [fetch, memRead_pc]

/-- Away from KBSR a step executes the cell at `pc` and the fetch only advances `pc` (R231). -/
theorem step_of_ne {s : State} (hrun : s.run = .running) (hwait : s.wait = none) (hpc : s.pc ≠ Config.kbsrAddr) :
    step s = exec (decode (s.mem.read s.pc)) { s with pc := s.pc + 1 } := by
  rw [step_running hrun hwait, fetch_of_ne hpc]

/-- Settles O45: `fetch_eq` in every state, `step_of_ne` away from KBSR. -/
theorem stepRunsTheFetchedInstruction : Obligations.StepRunsTheFetchedInstruction := fun s hrun hwait => by
  rw [ofNat_toNat_succ]
  exact ⟨by rw [step_running hrun hwait, fetch_eq], step_of_ne hrun hwait⟩

/-- Settles O46: the status word that the poll of `readPollsOnlyAtKbsr` leaves is 0x8000, which is RTI, or 0x0000, which is
NOP. -/
theorem fetchFromKbsrExecutesTheStatusWord : Obligations.FetchFromKbsrExecutesTheStatusWord :=
    fun s hrun hwait hpc hkbsr => by
  have hstep {v : Word} {t : State} (hv : memRead 0xFE00 s = (v, t)) :
      step s = exec (decode v) { t with pc := 0xFE01 } := by
    rw [step_running hrun hwait, fetch_eq, hpc, hv]
    rfl
  have hrti : decode (0 ||| 0x8000) = .rti := by decide
  have hnop : decode (0 &&& 0x7FFF) = .nop 0 := by decide
  have hread := readPollsOnlyAtKbsr.2 s
  rw [hkbsr] at hread
  split
  case h_1 c hc =>
    simp only [hc] at hread
    obtain ⟨m, hread, hs, hd, hother⟩ := hread
    refine ⟨m, ?_, hs, hd, hother⟩
    rw [hstep hread, hrti, exec_rti, raiseFatal_eq]
  case h_2 hc =>
    simp only [hc] at hread
    obtain ⟨m, hread, hs, hother⟩ := hread
    refine ⟨m, ?_, fun b => ?_⟩
    · rw [hstep hread, hnop, exec_nop]
    · by_cases hb : b = 0xFE00
      · rw [hb, hs, hkbsr]
        rfl
      · exact hother b hb

theorem eaPc9_zero (s : State) : eaPc9 0 s = s.pc := by rw [eaPc9, sext_zero, add_zero]

/-- Settles O50: the store of the first step is to its incremented pc, so the second step fetches the word stored. -/
theorem storeIsSeenByTheNextFetch : Obligations.StoreIsSeenByTheNextFetch := fun s sr hrun hwait hpc hnext hdec => by
  have hne : s.pc + 1 ≠ Config.kbsrAddr := fun h => hnext (add_right_cancel (b := 1) h)
  refine ⟨memWrite (s.pc + 1) (s.reg sr) { s with pc := s.pc + 1 }, ?_, rfl, ?_⟩
  · rw [step_of_ne hrun hwait hpc, hdec, exec_st, eaPc9_zero]
    rfl
  · rw [step_of_ne (s := memWrite (s.pc + 1) (s.reg sr) { s with pc := s.pc + 1 }) hrun hwait hne]
    simp [add_assoc]

/-- Settles O53: the placed word stands at a pc that is not KBSR, so the fetch reads it as it stands. -/
theorem placedWordRunsNext : Obligations.PlacedWordRunsNext := fun s w => by
  have hword : BitVec.ofNat 16 (w.toNat % 2 ^ 16) = w := by
    rw [Nat.mod_eq_of_lt w.isLt, BitVec.ofNat_toNat, BitVec.setWidth_eq]
  have hne : (s.withFetchWord 16 w.toNat).pc ≠ Config.kbsrAddr := by
    simp only [State.withFetchWord]
    split
    · decide
    · assumption
  rw [step_of_ne rfl rfl hne]
  simp only [State.withFetchWord, hword, Memory.read_write_self]

/-! ### The end of a run -/

/-- Settles O47: a run that is HALTED has no step to go on with. -/
theorem haltedIsTerminal : Obligations.HaltedIsTerminal := fun s t hs h => by
  induction h with
  | refl => rfl
  | step _ hstep ih =>
    subst ih
    cases (step_halted hs).symm.trans hstep

/-- The three fatal decode errors, each with the instruction that takes it (R251). -/
theorem fatalCause_eq_some_cases {i : Instr} {cause : FatalCause} (h : fatalCause i = some cause) :
    (i = .rti ∧ cause = .reservedOpcode .rti) ∨ (i = .res ∧ cause = .reservedOpcode .res) ∨
      ∃ v : Byte, i = .trap v ∧ cause = .unknownTrapVector v := by
  unfold fatalCause at h
  split at h
  · cases h; exact .inl ⟨rfl, rfl⟩
  · cases h; exact .inr (.inl ⟨rfl, rfl⟩)
  · split at h <;> cases h
    exact .inr (.inr ⟨_, rfl, rfl⟩)
  · cases h

/-- Settles O48: a step begins RUNNING, so to end HALTED it executed HALT or an instruction with a fatal decode error
(`ExecEffect.runs_or_halts`); the decoder gives HALT and not TRAP 0x25 (`decode_wf`). -/
theorem haltedIsEnteredByHaltOrFatalErrorOnly : Obligations.HaltedIsEnteredByHaltOrFatalErrorOnly := fun s t h ht => by
  obtain ⟨hrun, ⟨-, hexec⟩ | ⟨which, c, -, -, rfl⟩⟩ := step_cases h
  case inr => simp [hrun] at ht
  have hwf := decode_wf (fetch s).1
  have hfault := exec_fault hexec
  rw [fetch_fault] at hfault
  have hword : (memRead s.pc s).1 = (fetch s).1 := rfl
  rw [hword]
  have hstops := (exec_effect hexec).runs_or_halts
  generalize decode (fetch s).1 = i at *
  obtain ⟨hr, -⟩ | ⟨-, -, hc | rfl | rfl⟩ := hstops
  · simp [hr, hrun] at ht
  · obtain ⟨cause, hc⟩ := Option.ne_none_iff_exists'.mp hc
    rw [hc] at hfault
    obtain ⟨rfl, rfl⟩ | ⟨rfl, rfl⟩ | ⟨v, rfl, rfl⟩ := fatalCause_eq_some_cases hc
    · exact .inr (.inl ⟨rfl, hfault⟩)
    · exact .inr (.inr (.inl ⟨rfl, hfault⟩))
    · exact .inr (.inr (.inr ⟨v, rfl, hfault⟩))
  · exact .inl ⟨rfl, hfault⟩
  · exact absurd hwf (by decide)

/-- Settles O49: the invariant along the run (`Reaches.inv`) and `haltedIsTerminal`. -/
theorem faultIsNeverClearedOrSurvived : Obligations.FaultIsNeverClearedOrSurvived := fun s t u hs h ht => by
  have hrun : t.run = .halted := (h.inv hs).fault_halted ht
  exact ⟨hrun, haltedIsTerminal t u hrun⟩

end Sys2Proof.Machine
end

section
/-! PUTS and PUTSP as loops of reads (spec/43_trap.md R194, R196), and the obligations about them. -/

namespace Sys2Proof.Machine

/-! ### The loop and its reads -/

theorem exec_puts (s : State) : exec .puts s = endString (runToEnd putsWord (s.reg .r0) s) :=
  congrArg endString (runString_eq putsWord (s.reg .r0) s)

theorem exec_putsp (s : State) : exec .putsp s = endString (runToEnd putspWord (s.reg .r0) s) :=
  congrArg endString (runString_eq putspWord (s.reg .r0) s)

theorem endString_eq_fault_iff {r : Option State} : endString r = .fault .stringUnterminated ↔ r = none := by
  cases r <;> simp [endString]

/-- A relation that describes a loop turn by turn, with the word read at each turn, holds exactly of the loops that end. -/
theorem runToEnd_eq_some_iff_reads {word : Word → State → Bool × State} {Reads : List Word → Word → State → State → Prop}
    (last : ∀ a s t, Reads [] a s t ↔ word a s = (true, t))
    (turn : ∀ w ws a s t, Reads (w :: ws) a s t ↔
      (memRead a s).1 = w ∧ (word a s).1 = false ∧ Reads ws (a + 1) (word a s).2 t)
    {a : Word} {s t : State} : runToEnd word a s = some t ↔ ∃ ws, Reads ws a s t := by
  constructor
  · intro h
    replace h := runToEnd_eq_some.mp h
    obtain ⟨n, h⟩ := h
    induction n generalizing a s with
    | zero => cases h
    | succ n ih =>
      simp only [runFor] at h
      split at h
      case isTrue hend =>
        cases h
        exact ⟨[], (last ..).mpr (Prod.ext hend rfl)⟩
      case isFalse hend =>
        obtain ⟨ws, hws⟩ := ih h
        exact ⟨(memRead a s).1 :: ws, (turn ..).mpr ⟨rfl, Bool.eq_false_of_not_eq_true hend, hws⟩⟩
  · rintro ⟨ws, h⟩
    induction ws generalizing a s with
    | nil => rw [runToEnd, (last ..).mp h]; rfl
    | cons w ws ih =>
      obtain ⟨-, hgo, hws⟩ := (turn ..).mp h
      rw [runToEnd, if_neg (by simp [hgo]), ih hws]

section Turns

variable {a : Word} {s : State}

theorem putsWord_of_zero (h : (memRead a s).1 = 0) : putsWord a s = (true, (memRead a s).2) := if_pos h

theorem putsWord_of_ne (h : (memRead a s).1 ≠ 0) :
    putsWord a s = (false, consolePut ((memRead a s).1.setWidth 8) (memRead a s).2) := if_neg h

theorem putspWord_of_loByte_zero (h : loByte (memRead a s).1 = 0) : putspWord a s = (true, (memRead a s).2) := if_pos h

theorem putspWord_of_hiByte_zero (hl : loByte (memRead a s).1 ≠ 0) (hh : hiByte (memRead a s).1 = 0) :
    putspWord a s = (true, consolePut (loByte (memRead a s).1) (memRead a s).2) := (if_neg hl).trans (if_pos hh)

theorem putspWord_of_ne (hl : loByte (memRead a s).1 ≠ 0) (hh : hiByte (memRead a s).1 ≠ 0) :
    putspWord a s =
      (false, consolePut (hiByte (memRead a s).1) (consolePut (loByte (memRead a s).1) (memRead a s).2)) :=
  (if_neg hl).trans (if_neg hh)

end Turns

theorem runToEnd_putsWord_iff {a : Word} {s t : State} :
    runToEnd putsWord a s = some t ↔ ∃ ws, PutsReads ws a s t := by
  refine runToEnd_eq_some_iff_reads (fun a s t => ?last) (fun w ws a s t => ?turn)
  case last =>
    by_cases h : (memRead a s).1 = 0#16
    · simp [PutsReads, putsWord_of_zero h, h]
      exact eq_comm
    · simp [PutsReads, putsWord_of_ne h, h]
  case turn =>
    refine and_congr_right ?_
    rintro rfl
    by_cases h : (memRead a s).1 = 0#16
    · simp [putsWord_of_zero h, h]
    · simp [putsWord_of_ne h, h]

theorem runToEnd_putspWord_iff {a : Word} {s t : State} :
    runToEnd putspWord a s = some t ↔ ∃ ws, PutspReads ws a s t := by
  refine runToEnd_eq_some_iff_reads (fun a s t => ?last) (fun w ws a s t => ?turn)
  case last =>
    by_cases hl : loByte (memRead a s).1 = 0#8
    · simp [PutspReads, putspWord_of_loByte_zero hl, hl]
      exact eq_comm
    · by_cases hh : hiByte (memRead a s).1 = 0#8
      · simp [PutspReads, putspWord_of_hiByte_zero hl hh, hl, hh]
        exact eq_comm
      · simp [PutspReads, putspWord_of_ne hl hh, hl, hh]
  case turn =>
    refine and_congr_right ?_
    rintro rfl
    by_cases hl : loByte (memRead a s).1 = 0#8
    · simp [putspWord_of_loByte_zero hl, hl]
    · by_cases hh : hiByte (memRead a s).1 = 0#8
      · simp [putspWord_of_hiByte_zero hl hh, hh]
      · simp [putspWord_of_ne hl hh, hl, hh]

/-- Settles O32: reads that end are a loop that ends (`runToEnd_putsWord_iff`), after which PUTS flushes. -/
theorem putsFollowsItsReads : Obligations.PutsFollowsItsReads := fun s t ws h => by
  rw [exec_puts, runToEnd_putsWord_iff.mpr ⟨ws, h⟩]
  rfl

/-- Settles O34: reads that end are a loop that ends (`runToEnd_putspWord_iff`), after which PUTSP flushes. -/
theorem putspFollowsItsReads : Obligations.PutspFollowsItsReads := fun s t ws h => by
  rw [exec_putsp, runToEnd_putspWord_iff.mpr ⟨ws, h⟩]
  rfl

/-- Settles O59: the stop is the loop that ends in no state, and a loop ends in a state exactly where reads end there. -/
theorem stringRoutineStopsExactlyWhereItNeverEnds : Obligations.StringRoutineStopsExactlyWhereItNeverEnds := fun s => by
  constructor
  · rw [exec_puts, endString_eq_fault_iff, Option.eq_none_iff_forall_ne_some]
    simp only [ne_eq, runToEnd_putsWord_iff, not_exists]
    exact forall_comm
  · rw [exec_putsp, endString_eq_fault_iff, Option.eq_none_iff_forall_ne_some]
    simp only [ne_eq, runToEnd_putspWord_iff, not_exists]
    exact forall_comm

/-! ### Strings that do not cover KBSR -/

/-- The words `ws` and then `last` stand at consecutive cells from `a` on, none of them KBSR. -/
def StoredFrom (m : Memory) (last : Word) : List Word → Word → Prop
  | [], a => m.read a = last ∧ a ≠ Config.kbsrAddr
  | w :: ws, a => (m.read a = w ∧ a ≠ Config.kbsrAddr) ∧ StoredFrom m last ws (a + 1)

/-- The same by index, as the statements about strings put it. -/
theorem StoredFrom.of_forall {m : Memory} {last : Word} {ws : List Word} {a : Word}
    (hws : ∀ i (h : i < ws.length), m.read (a + BitVec.ofNat 16 i) = ws[i])
    (hlast : m.read (a + BitVec.ofNat 16 ws.length) = last)
    (hk : ∀ i ≤ ws.length, a + BitVec.ofNat 16 i ≠ Config.kbsrAddr) : StoredFrom m last ws a := by
  induction ws generalizing a with
  | nil => simpa [StoredFrom] using And.intro hlast (hk 0 (Nat.le_refl 0))
  | cons w ws ih =>
    have hnext (i : Nat) : a + 1 + BitVec.ofNat 16 i = a + BitVec.ofNat 16 (i + 1) := by
      rw [Nat.add_comm, BitVec.ofNat_add, add_assoc]
      rfl
    refine ⟨by simpa using And.intro (hws 0 (Nat.succ_pos _)) (hk 0 (Nat.zero_le _)), ih (fun i hi => ?_) ?_ fun i hi => ?_⟩
    · rw [hnext]
      exact hws (i + 1) (Nat.succ_lt_succ hi)
    · rw [hnext]
      exact hlast
    · rw [hnext]
      exact hk (i + 1) (Nat.succ_le_succ hi)

theorem consolePutAll_consolePut (c : Byte) (cs : List Byte) (s : State) :
    consolePutAll cs (consolePut c s) = consolePutAll (c :: cs) s := by
  simp [consolePutAll, consolePut]

theorem putsReads_of_storedFrom {ws : List Word} {a : Word} {s : State} (h : StoredFrom s.mem 0 ws a)
    (hne : ∀ w ∈ ws, w ≠ 0) : PutsReads ws a s (consolePutAll (ws.map (·.setWidth 8)) s) := by
  induction ws generalizing a s with
  | nil =>
    obtain ⟨hread, hk⟩ := h
    rw [PutsReads, memRead_of_ne s hk]
    exact ⟨hread, by simp [consolePutAll]⟩
  | cons w ws ih =>
    obtain ⟨⟨hread, hk⟩, hws⟩ := h
    rw [PutsReads, memRead_of_ne s hk, List.map_cons, ← consolePutAll_consolePut]
    exact ⟨hread, hne w List.mem_cons_self, ih hws fun w' hw' => hne w' (List.mem_cons_of_mem _ hw')⟩

/-- The characters of a packed string: both bytes of each word, then the low byte of a last word that has one (R196). -/
def packedChars (ws : List Word) (last : Word) : List Byte :=
  ws.flatMap (fun w => [loByte w, hiByte w]) ++ if loByte last = 0 then [] else [loByte last]

theorem putspReads_of_storedFrom {ws : List Word} {last a : Word} {s : State} (h : StoredFrom s.mem last ws a)
    (hne : ∀ w ∈ ws, loByte w ≠ 0 ∧ hiByte w ≠ 0) (hlast : loByte last = 0 ∨ hiByte last = 0) :
    PutspReads ws a s (consolePutAll (packedChars ws last) s) := by
  induction ws generalizing a s with
  | nil =>
    obtain ⟨rfl, hk⟩ := h
    rw [PutspReads, memRead_of_ne s hk]
    by_cases hl : loByte (s.mem.read a) = 0#8
    · exact .inl ⟨hl, by simp [packedChars, hl, consolePutAll]⟩
    · exact .inr ⟨hl, hlast.resolve_left hl, by simp [packedChars, hl, consolePutAll, consolePut]⟩
  | cons w ws ih =>
    obtain ⟨⟨hread, hk⟩, hws⟩ := h
    obtain ⟨hl, hh⟩ := hne w List.mem_cons_self
    have hchars : packedChars (w :: ws) last = loByte w :: hiByte w :: packedChars ws last := rfl
    rw [PutspReads, memRead_of_ne s hk, hchars, ← consolePutAll_consolePut, ← consolePutAll_consolePut]
    exact ⟨hread, hl, hh, ih hws fun w' hw' => hne w' (List.mem_cons_of_mem _ hw')⟩

/-- The low byte of a word as a number (R193, R194). -/
theorem ofNat_mod_eq_setWidth (w : Word) : BitVec.ofNat 8 (w.toNat % 256) = w.setWidth 8 := by
  apply BitVec.eq_of_toNat_eq
  simp

/-- Settles O31: the stored string is a sequence of reads that ends (`putsReads_of_storedFrom`), which PUTS follows. -/
theorem putsWritesTheString : Obligations.PutsWritesTheString := fun s ws hws hlast hk => by
  have hstored : StoredFrom s.mem 0 ws (s.reg .r0) := .of_forall (fun i h => (hws i h).1) hlast hk
  have hne (w : Word) (hw : w ∈ ws) : w ≠ 0 := by
    obtain ⟨i, hi, rfl⟩ := List.mem_iff_getElem.mp hw
    exact (hws i hi).2
  rw [putsFollowsItsReads _ _ _ (putsReads_of_storedFrom hstored hne)]
  simp [consolePutAll, ofNat_mod_eq_setWidth]

/-- Settles O33: the stored string is a sequence of reads that ends (`putspReads_of_storedFrom`), which PUTSP follows. -/
theorem putspWritesThePackedString : Obligations.PutspWritesThePackedString := fun s ws last hws hlast hzero hk => by
  have hstored : StoredFrom s.mem last ws (s.reg .r0) := .of_forall (fun i h => (hws i h).1) hlast hk
  have hne (w : Word) (hw : w ∈ ws) : loByte w ≠ 0 ∧ hiByte w ≠ 0 := by
    obtain ⟨i, hi, rfl⟩ := List.mem_iff_getElem.mp hw
    exact (hws i hi).2
  refine ⟨packedChars ws last, rfl, ?_⟩
  rw [putspFollowsItsReads _ _ _ (putspReads_of_storedFrom hstored hne hzero)]
  simp [consolePutAll]

/-! ### Strings without an end -/

/-- A loop none of whose turns ends, by a property of the state that every turn keeps, never ends. -/
theorem runToEnd_eq_none {word : Word → State → Bool × State} {P : State → Prop}
    (turn : ∀ a s, P s → (word a s).1 = false ∧ P (word a s).2) {a : Word} {s : State} (hs : P s) :
    runToEnd word a s = none := by
  rw [Option.eq_none_iff_forall_ne_some]
  intro t h
  replace h := runToEnd_eq_some.mp h
  obtain ⟨n, h⟩ := h
  induction n generalizing a s with
  | zero => cases h
  | succ n ih =>
    obtain ⟨hgo, hP⟩ := turn a s hs
    rw [runFor, if_neg (by simp [hgo])] at h
    exact ih hP h

/-- Every word a string routine can come to read has the property `Q`: each cell, the status word a poll leaves without a
character, and each character left in the input, as a poll puts it in KBDR. -/
structure AllReadable (Q : Word → Prop) (s : State) : Prop where
  cell : ∀ a, Q (s.mem.read a)
  kbsr : Q (s.mem.read Config.kbsrAddr &&& 0x7FFF)
  input : ∀ n c, s.inPos ≤ n → s.inputAt n = some c → Q (zext8 c)

theorem inputAt_congr {s t : State} (hc : t.consoleInput = s.consoleInput) (ht : t.inputTail = s.inputTail) (n : Nat) :
    t.inputAt n = s.inputAt n := by
  rw [State.inputAt, hc, ht, State.inputAt]

theorem or_0x8000_and_0x7FFF (w : Word) : (w ||| 0x8000) &&& 0x7FFF = w &&& 0x7FFF := by
  rw [BitVec.and_or_distrib_right]
  exact BitVec.or_zero

/-- What a read leaves in a cell: what stood there, or the poll's status word, or the character found (R54). -/
theorem read_memRead_cases (a b : Word) (s : State) :
    (memRead a s).2.mem.read b = s.mem.read b ∨
    (b = Config.kbsrAddr ∧ ((memRead a s).2.mem.read b = s.mem.read b ||| 0x8000 ∨
      (memRead a s).2.mem.read b = s.mem.read b &&& 0x7FFF)) ∨
    (b = Config.kbdrAddr ∧ ∃ c, nextChar s = some c ∧ (memRead a s).2.mem.read b = zext8 c) := by
  by_cases ha : a = Config.kbsrAddr
  case neg => exact .inl (by rw [memRead_of_ne s ha])
  rw [ha, memRead_kbsr]
  obtain ⟨c, hc, -, h⟩ | ⟨-, h⟩ := keyboardPoll_cases s <;> rw [h]
  · by_cases hd : b = Config.kbdrAddr
    · subst hd
      exact .inr (.inr ⟨rfl, c, hc, Memory.read_write_self _ _ _⟩)
    · by_cases hs : b = Config.kbsrAddr
      · subst hs
        exact .inr (.inl ⟨rfl, .inl ((Memory.read_write_ne _ _ hd).trans (Memory.read_write_self _ _ _))⟩)
      · exact .inl ((Memory.read_write_ne _ _ hd).trans (Memory.read_write_ne _ _ hs))
  · by_cases hs : b = Config.kbsrAddr
    · subst hs
      exact .inr (.inl ⟨rfl, .inr (Memory.read_write_self _ _ _)⟩)
    · exact .inl (Memory.read_write_ne _ _ hs)

namespace AllReadable

variable {Q : Word → Prop} {s : State}

/-- A read keeps the property: the status word of a poll differs from the one before in bit 15 alone. -/
theorem of_memRead (hQ : ∀ w, Q w → Q (w ||| 0x8000)) (h : AllReadable Q s) (a : Word) :
    AllReadable Q (memRead a s).2 where
  cell b := by
    obtain hb | ⟨rfl, hb | hb⟩ | ⟨rfl, c, hc, hb⟩ := read_memRead_cases a b s <;> rw [hb]
    · exact h.cell b
    · exact hQ _ (h.cell _)
    · exact h.kbsr
    · exact h.input _ c (Nat.le_refl _) hc
  kbsr := by
    obtain hb | ⟨-, hb | hb⟩ | ⟨hb, -⟩ := read_memRead_cases a Config.kbsrAddr s
    · exact hb ▸ h.kbsr
    · rw [hb, or_0x8000_and_0x7FFF]
      exact h.kbsr
    · rw [hb, BitVec.and_assoc, BitVec.and_self]
      exact h.kbsr
    · exact absurd hb kbsr_ne_kbdr
  input n c hn hc := by
    rw [inputAt_congr (memRead_consoleInput a s) (memRead_inputTail a s)] at hc
    exact h.input n c ((Advances.of_stringEffect (.of_memRead a s)).inPos.trans hn) hc

/-- The word a read gives has the property. -/
theorem memRead_fst (hQ : ∀ w, Q w → Q (w ||| 0x8000)) (h : AllReadable Q s) (a : Word) : Q (memRead a s).1 := by
  rw [Machine.memRead_fst]
  exact (h.of_memRead hQ a).cell a

theorem put (h : AllReadable Q s) (c : Byte) : AllReadable Q (consolePut c s) := ⟨h.cell, h.kbsr, h.input⟩

end AllReadable

theorem or_0x8000_ne_zero (w : Word) : w ||| 0x8000 ≠ 0 := fun h => by
  simpa using congrArg (BitVec.getLsbD · 15) h

theorem loByte_or_0x8000 (w : Word) : loByte (w ||| 0x8000) = loByte w := by
  rw [loByte, BitVec.extractLsb'_or]
  exact BitVec.or_zero

theorem loByte_and_0x7FFF (w : Word) : loByte (w &&& 0x7FFF) = loByte w := by
  rw [loByte, BitVec.extractLsb'_and]
  exact BitVec.and_allOnes

theorem hiByte_or_0x8000_ne_zero (w : Word) : hiByte (w ||| 0x8000) ≠ 0 := fun h => by
  simpa [hiByte] using congrArg (BitVec.getLsbD · 7) h

theorem zext8_ne_zero {c : Byte} (h : c ≠ 0) : zext8 c ≠ 0 := fun hz =>
  h (BitVec.eq_of_toNat_eq (by rw [← toNat_zext8, hz]; rfl))

/-- An input with no next character has none later either. -/
theorem inputAt_eq_none_of_le {s : State} {m n : Nat} (h : s.inputAt m = none) (hmn : m ≤ n) : s.inputAt n = none := by
  cases ht : s.inputTail with
  | ended =>
    rw [inputAt_ended _ ht, List.getElem?_eq_none_iff] at h ⊢
    omega
  | endless k =>
    by_cases hm : m < s.consoleInput.length
    · cases (inputAt_listed hm).symm.trans h
    · cases (inputAt_endless ht (Nat.le_of_not_lt hm)).symm.trans h

/-- Settles O35: that every readable word is non-zero (has no zero byte) is kept by every turn, and no such word ends the
loop. -/
theorem stringWithoutTerminatorHasNoStep : Obligations.StringWithoutTerminatorHasNoStep := fun s => by
  refine ⟨fun hcell hkbsr hinput => ?puts, fun hcell hkbsr hinput => ?putsp⟩
  case puts =>
    have hs : AllReadable (· ≠ 0) s := by
      refine ⟨hcell, hkbsr, fun n c hn hc => zext8_ne_zero fun h0 => hinput n hn ?_⟩
      rw [hc, h0]
    have hor (w : Word) (_ : w ≠ 0) : w ||| 0x8000 ≠ 0 := or_0x8000_ne_zero w
    rw [exec_puts, endString_eq_fault_iff]
    refine runToEnd_eq_none (P := AllReadable (· ≠ 0)) (fun a u hu => ?_) hs
    rw [putsWord_of_ne (hu.memRead_fst hor a)]
    exact ⟨rfl, (hu.of_memRead hor a).put _⟩
  case putsp =>
    have hs : AllReadable (fun w => loByte w ≠ 0 ∧ hiByte w ≠ 0) s := by
      refine ⟨hcell, ⟨?_, hkbsr⟩, fun n c hn hc => ?_⟩
      · rw [loByte_and_0x7FFF]
        exact (hcell _).1
      · cases (inputAt_eq_none_of_le hinput hn).symm.trans hc
    have hor (w : Word) (h : loByte w ≠ 0 ∧ hiByte w ≠ 0) :
        loByte (w ||| 0x8000) ≠ 0 ∧ hiByte (w ||| 0x8000) ≠ 0 := by
      rw [loByte_or_0x8000]
      exact ⟨h.1, hiByte_or_0x8000_ne_zero w⟩
    rw [exec_putsp, endString_eq_fault_iff]
    refine runToEnd_eq_none (P := AllReadable fun w => loByte w ≠ 0 ∧ hiByte w ≠ 0) (fun a u hu => ?_) hs
    obtain ⟨hl, hh⟩ := hu.memRead_fst hor a
    rw [putspWord_of_ne hl hh]
    exact ⟨rfl, ((hu.of_memRead hor a).put _).put _⟩

end Sys2Proof.Machine
end

section
/-! The console reads and the other traps (spec/43_trap.md), and the obligations about them. -/

namespace Sys2Proof.Machine

/-! ### What the traps do, in one form each -/

theorem exec_getc (s : State) : exec .getc s = .next (consoleGet .getc s) := rfl

theorem exec_in (s : State) : exec .in_ s = .next (consoleGet .in_ (consolePutAll Config.inPrompt s)) := rfl

theorem exec_out (s : State) : exec .out s = .next (consoleFlush (consolePut ((s.reg .r0).setWidth 8) s)) := rfl

theorem exec_halt (s : State) : exec .halt s =
    .next { consoleFlush (consolePutAll Config.haltNotice (consoleFlush s)) with run := .halted } := rfl

theorem consoleGet_of_some (which : BlockedRead) {s : State} {c : Byte} (h : nextChar s = some c) :
    consoleGet which s = takeChar which c s := by
  rw [consoleGet, h]

theorem consoleGet_of_none (which : BlockedRead) {s : State} (h : nextChar s = none) :
    consoleGet which s = { s with wait := some which } := by
  rw [consoleGet, h]

theorem resumeRead_of_some (which : BlockedRead) {s : State} {c : Byte} (h : nextChar s = some c) :
    resumeRead which s = .next (takeChar which c s) := by
  rw [resumeRead, h]

theorem resumeRead_of_none (which : BlockedRead) {s : State} (h : nextChar s = none) :
    resumeRead which s = .fault .waitingForInput := by
  rw [resumeRead, h]

/-! ### The obligations -/

/-- Settles O25: with a character there GETC takes it (`consoleGet_of_some`). -/
theorem getcReadsOneCharacter : Obligations.GetcReadsOneCharacter := fun s c h => by
  rw [exec_getc, consoleGet_of_some .getc h]
  rfl

/-- Settles O26: the prompt consumes nothing, so IN takes the character that was there. -/
theorem inPromptsReadsAndEchoes : Obligations.InPromptsReadsAndEchoes := fun s c h => by
  rw [exec_in, consoleGet_of_some .in_ (s := consolePutAll Config.inPrompt s) h]
  rfl

/-- Settles O27: without a character the routine waits (`consoleGet_of_none`), IN after its prompt. -/
theorem blockingReadWaits : Obligations.BlockingReadWaits := fun s h => by
  constructor
  · rw [exec_getc, consoleGet_of_none .getc h]
  · rw [exec_in, consoleGet_of_none .in_ (s := consolePutAll Config.inPrompt s) h]
    rfl

/-- Settles O28: at the end of an ended input there is no next character, and the first of the characters that arrive is the
next one after they have. -/
theorem waitEndsWhenACharacterArrives : Obligations.WaitEndsWhenACharacterArrives := fun s c cs hrun hended hpos => by
  have hnone : nextChar s = none := by
    rw [nextChar, inputAt_ended _ hended, hpos]
    exact List.getElem?_eq_none (Nat.le_refl _)
  have hsome : nextChar (supplyInput (c :: cs) s) = some c := by
    rw [nextChar, inputAt_ended (s := supplyInput (c :: cs) s) _ hended, supplyInput_inPos, hpos, supplyInput_consoleInput]
    simp
  have hstuck {which : BlockedRead} (hwait : s.wait = some which) : step s = .fault .waitingForInput := by
    rw [step_waiting hrun hwait, resumeRead_of_none which hnone]
  have hdone {which : BlockedRead} (hwait : s.wait = some which) :
      step (supplyInput (c :: cs) s) = .next (takeChar which c (supplyInput (c :: cs) s)) := by
    rw [step_waiting (s := supplyInput (c :: cs) s) hrun hwait, resumeRead_of_some which hsome]
  exact ⟨fun hwait => ⟨hstuck hwait, hdone hwait⟩, fun hwait => ⟨hstuck hwait, hdone hwait⟩⟩

/-- Settles O29: one character put, then the flush. -/
theorem outWritesTheLowByte : Obligations.OutWritesTheLowByte := fun s => by
  rw [exec_out, ← ofNat_mod_eq_setWidth, consoleFlush, consolePut_output, List.length_append]
  rfl

/-- Settles O30: the notice put between two flushes, then HALTED. -/
theorem haltStopsTheLoop : Obligations.HaltStopsTheLoop := fun s => by
  rw [exec_halt, consoleFlush, consolePutAll_output, List.length_append]
  rfl

/-- A console read with another memory does the same and leaves that memory. -/
theorem consoleGet_with_mem (which : BlockedRead) (m : Memory) (s : State) :
    consoleGet which { s with mem := m } = { consoleGet which s with mem := m } := by
  cases hc : nextChar s with
  | none => rw [consoleGet_of_none which hc, consoleGet_of_none which (s := { s with mem := m }) hc]
  | some c =>
    rw [consoleGet_of_some which hc, consoleGet_of_some which (s := { s with mem := m }) hc]
    cases which <;> rfl

/-- Settles O38: vector by vector; only PUTS and PUTSP read memory. -/
theorem trapsIgnoreTheVectorTable : Obligations.TrapsIgnoreTheVectorTable := fun v m s hputs hputsp => by
  simp only [exec_trap]
  obtain ⟨rfl, -⟩ | ⟨rfl, -⟩ | ⟨rfl, -⟩ | ⟨rfl, -⟩ | ⟨rfl, -⟩ | ⟨rfl, -⟩ | ⟨hv, -⟩ := trapDispatch_cases v s
  · exact congrArg Host.Outcome.next (consoleGet_with_mem .getc m s)
  · rfl
  · exact absurd rfl hputs
  · exact congrArg Host.Outcome.next (consoleGet_with_mem .in_ m (consolePutAll Config.inPrompt s))
  · exact absurd rfl hputsp
  · rfl
  · rw [trapDispatch_of_knownVector_eq_false hv, trapDispatch_of_knownVector_eq_false hv]
    rfl

end Sys2Proof.Machine
end

section
/-! The start of a run, the BR test, the alias rows, JSRR and LDI by the spec's own examples, and the obligations about them. -/

namespace Sys2Proof.Machine

/-- Settles O1: each field of `State.launch` as the reset table gives it. -/
theorem launchStateIsAsSpecified : Obligations.LaunchStateIsAsSpecified := fun _ =>
  ⟨rfl, rfl, rfl, fun _ => rfl, fun _ => rfl, rfl, rfl, rfl, rfl⟩

theorem launch_inv {l : Launch} (h : l.memInit.wf = true) : (State.launch l).Inv where
  mem_wf := h
  fault_halted hf := absurd rfl hf
  wait_running _ := rfl
  flushed_le := Nat.le_refl 0
  inPos_le _ := Nat.zero_le _

/-- Settles O2: `launch_inv`; the launch of `State.reset` has an empty memory. -/
theorem invariantHoldsAtStart : Obligations.InvariantHoldsAtStart := ⟨launch_inv rfl, fun _ => launch_inv⟩

/-- Settles O5: `branchTaken_iff`. -/
theorem branchTestIsTheThreeValuedTest : Obligations.BranchTestIsTheThreeValuedTest :=
  ⟨rfl, rfl, rfl, fun n z p c => by simp only [branchTaken_iff, and_comm]⟩

/-- Settles O15: `exec_nop` and `exec_br_never`. -/
theorem nopHasNoEffect : Obligations.NopHasNoEffect := fun off9 s => ⟨exec_nop off9 s, exec_br_never off9 s⟩

/-- Settles O14: each alias arm is its base row's arm; the vectors by `trapDispatch`. -/
theorem aliasesExecuteAsTheirBaseRow : Obligations.AliasesExecuteAsTheirBaseRow := fun s =>
  ⟨fun off9 => (exec_nop off9 s).trans (exec_br_never off9 s).symm, exec_ret s, rfl, rfl, rfl, rfl, rfl, rfl⟩

theorem exec_jsrr (base : Reg) (s : State) :
    exec (.jsrr base) s = .next ((s.setReg .r7 s.pc).setPc ((s.setReg .r7 s.pc).reg base)) := rfl

/-- Settles O13: the base is read from the registers after the link, where R7 holds the incremented pc. -/
theorem jsrrReadsTheBaseAfterLinking : Obligations.JsrrReadsTheBaseAfterLinking := fun base s => by
  rw [exec_jsrr, State.reg, State.setReg_regs, RegFile.get_set]
  rfl

/-- Settles O21: away from KBSR both reads of `ldiReadsPointerThenValue` are plain. -/
theorem ldiFollowsOneIndirection : Obligations.LdiFollowsOneIndirection := fun dr off9 s a v ha hv hea hak => by
  subst ha hv
  exact ldiReadsPointerThenValue dr off9 s s s _ _ (memRead_of_ne s hea) (memRead_of_ne s hak)

end Sys2Proof.Machine
end

section
/-! The image loader (spec/70_reset_and_hazards.md R286, R287), and the obligation about it. -/

namespace Sys2Proof.Machine

theorem hiByte_append_loByte (w : Word) : (hiByte w ++ loByte w : Word) = w := by
  refine BitVec.eq_of_getLsbD_eq fun i hi => ?_
  rw [BitVec.getLsbD_append]
  by_cases h8 : i < 8
  · simp [h8, loByte]
  · have hhi : 8 + (i - 8) = i := by omega
    have hlt : i - 8 < 8 := by omega
    simp [h8, hiByte, hhi, hlt]

/-- The bytes of words in big-endian order are read back as the words. -/
theorem imageWords_flatMap (ws : List Word) : imageWords (ws.flatMap fun w => [hiByte w, loByte w]) = some ws := by
  induction ws with
  | nil => rfl
  | cons w ws ih => simp [imageWords, ih, hiByte_append_loByte]

theorem loadImage_flatMap (origin : Word) (ws : List Word) :
    loadImage ((origin :: ws).flatMap fun w => [hiByte w, loByte w]) =
      if origin.toNat + ws.length ≤ 65536 then some (storeWords [] origin ws) else none := by
  rw [loadImage, imageWords_flatMap]

theorem storeWords_wf {m : Memory} (h : m.wf = true) (a : Word) (ws : List Word) : (storeWords m a ws).wf = true := by
  induction ws generalizing m a with
  | nil => exact h
  | cons w ws ih => exact ih (Memory.wf_write a w h) (a + 1)

/-- What a cell holds after words were stored from the address `n` on: the address as a number, so that the address after
the last cell, 65536, is above every cell. -/
theorem read_storeWords {n : Nat} {ws : List Word} (hn : n + ws.length ≤ 65536) (m : Memory) (b : Word) :
    (storeWords m (BitVec.ofNat 16 n) ws).read b =
      if n ≤ b.toNat then ws.getD (b.toNat - n) (m.read b) else m.read b := by
  induction ws generalizing n m with
  | nil => simp [storeWords]
  | cons w ws ih =>
    rw [List.length_cons] at hn
    have hsucc : BitVec.ofNat 16 n + 1 = BitVec.ofNat 16 (n + 1) := by rw [BitVec.ofNat_add]; rfl
    have hb : b = BitVec.ofNat 16 n ↔ b.toNat = n := by
      rw [← BitVec.toNat_inj, BitVec.toNat_ofNat, Nat.mod_eq_of_lt (by omega)]
    simp only [storeWords, hsucc, ih (show n + 1 + ws.length ≤ 65536 by omega), Memory.read_write, hb]
    obtain hlt | heq | hgt := Nat.lt_trichotomy n b.toNat
    · have hsub : b.toNat - n = (b.toNat - (n + 1)) + 1 := by omega
      rw [if_pos (Nat.succ_le_of_lt hlt), if_neg hlt.ne', if_pos hlt.le, hsub, List.getD_cons_succ]
    · rw [if_neg (by omega), if_pos heq.symm, if_pos heq.le, heq, Nat.sub_self, List.getD_cons_zero]
    · rw [if_neg (by omega), if_neg hgt.ne, if_neg (by omega)]

/-- Settles O58: the loader reads the words back (`loadImage_flatMap`) and stores them in an empty memory. -/
theorem imageIsStoredFromItsOrigin : Obligations.ImageIsStoredFromItsOrigin := fun origin ws => by
  rw [loadImage_flatMap]
  by_cases hfit : origin.toNat + ws.length ≤ 65536
  · rw [if_pos hfit]
    refine ⟨hfit, storeWords_wf rfl origin ws, fun a => ?_⟩
    have hread := read_storeWords hfit [] a
    rwa [BitVec.ofNat_toNat, BitVec.setWidth_eq] at hread
  · rw [if_neg hfit]
    exact Nat.lt_of_not_le hfit

end Sys2Proof.Machine
end
